-- ==== Sys2Proof/Word.lean ====
section
/-!
DEFINITION. The words of SB-CORE whose width no parameter names (spec/00_scope.md R11): bytes, 32-bit register
and command words, and 16-byte blocks. The word of SEED_W bits, `DWord`, stands in Config.lean.
-/

namespace Sys2Proof

/-- A byte of BUF, of a block or of a stream. -/
abbrev Byte := BitVec 8

/-- A register word and a command word: 32 bits (R11, R100). -/
abbrev Word := BitVec 32

/-- PREV, KS and `blk(b)`: 16 bytes numbered by index from 0 (R11, R12; `Config.block`). -/
abbrev Block := Vector Byte 16

end Sys2Proof
end

