-- ==== Sys2Proof/Config.lean ====
section
/-!
DEFINITION. The parameters of spec/00_scope.md R8, each a named field, the identification constant of
spec/10_state.md R33, the layout of the window (spec/20_memory.md R71), and the free values
(spec/20_memory.md R82, spec/93_implementation_defined.md). No command reads or writes them (R54).
-/

namespace Sys2Proof

/-- `SEED_W`, the width of seed, generator state and hash in bits (R8). UNVERIFIED (log 1, unsafe). -/
@[simp] abbrev Config.seedW : Nat := 64

/-- CURR, HASH and SEED: words of SEED_W bits (R8, R11). -/
abbrev DWord := BitVec Config.seedW

/-- `LCG_A`, the LCG multiplier (R8). UNVERIFIED: the source's literals are unaudited (log 1, unsafe). -/
def Config.lcgA : DWord := 1103515245

/-- `LCG_C`, the LCG increment (R8). UNVERIFIED (log 1, unsafe). -/
def Config.lcgC : DWord := 12345

/-- `LCG_M`, the LCG modulus (R8). UNVERIFIED (log 1, unsafe). -/
def Config.lcgM : DWord := 256

/-- `BLOCK`, the block size in bytes (R8); fixed by R9, so the type `Block` has it as a literal. -/
@[simp] abbrev Config.block : Nat := 16

/-- `CHUNK`, the size of BUF in bytes (R8, R10). UNVERIFIED (log 1, unsafe). -/
@[simp] abbrev Config.chunk : Nat := 4096

/-- `HASH_S1`, the first left shift of the seed hash (R8). UNVERIFIED (log 1, unsafe). -/
def Config.hashS1 : Nat := 6

/-- `HASH_S2`, the second left shift of the seed hash (R8). UNVERIFIED (log 1, unsafe). -/
def Config.hashS2 : Nat := 16

/-- `HASH_INIT`, the initial hash value (R8). -/
def Config.hashInit : DWord := 0

/-- `PW_CHAR_SIGNED`: is a password byte sign-extended before hashing? The spec's default (R8, R261;
log 11, unsafe where a platform takes the other choice). The pure hash function takes it as an argument. -/
def Config.pwCharSigned : Bool := false

/-- The constant the ID register reads (R33). -/
def Config.idWord : Word := 0x53420001

/-- The size of the register window in bytes: 13-bit offsets (R11, R70). -/
@[simp] abbrev Config.windowSize : Nat := 0x2000

/-- The window offset of BUF byte 0 (R71). -/
@[simp] abbrev Config.bufBase : Nat := 0x1000

/-- The page of 8 KiB the window sits on: an open parameter, so nothing is known of it (R8, R70; log 12, safe). -/
opaque Config.sbBasePage : Nat

/-- `SB_BASE`: the bus address of the window, aligned to 8 KiB (R70). -/
def Config.sbBase : Nat := Config.windowSize * Config.sbBasePage

/-- The free value of the n-th unspecified host read, drawn while BUSY = 1 or while reset is asserted
(R82, R340: a free draw, with no law; log 6, safe). -/
opaque Config.freeWord : Nat → Word

end Sys2Proof
end

