-- ==== Sys2Proof/Syntax.lean ====
section
/-!
DEFINITION. The commands of SB-CORE: one constructor per row of spec/opcode_table.json
(spec/30_encoding.md R106), with the fields R103 marks as used, at their widths (R101).
-/

namespace Sys2Proof

/-- A command with its fields. `c` is a password byte, `b` a block index 0..255, `len` the LEN field as
encoded (0..8191; the legal values are in `Instr.wellFormed`), `final` the F bit. -/
inductive Instr where
  | nop
  | srst
  | hclr
  | hbyte (c : BitVec 8)
  | hbuf (len : BitVec 13)
  | seedh
  | seedr
  | next
  | nextn (len : BitVec 13)
  | ksgen
  | ksld (b : BitVec 8)
  | sha (b : BitVec 8)
  | shd (b : BitVec 8)
  | pvld (b : BitVec 8)
  | eblk (b : BitVec 8)
  | dblk (b : BitVec 8)
  | eblks (b : BitVec 8)
  | dblks (b : BitVec 8)
  | cinit
  | pad (len : BitVec 13)
  | unpad (len : BitVec 13)
  | echnk (len : BitVec 13) (final : Bool)
  | dchnk (len : BitVec 13) (final : Bool)
deriving DecidableEq, Repr

end Sys2Proof
end

