-- ==== Sys2Proof/Machine/Operands.lean ====
section
/-!
DEFINITION. The operand forms: the legal values of LEN (spec/30_encoding.md R105), the BUF bytes a block
index names (R102), and the pad count (spec/43_framer.md R222).
-/

namespace Sys2Proof.Machine

/-- R105, HBUF and NEXTN: 0..4096. -/
def lenPrefix (len : BitVec 13) : Bool := len.toNat ≤ Config.chunk

/-- R105, PAD, and ECHNK with F = 1: 0..4095. -/
def lenPartial (len : BitVec 13) : Bool := len.toNat < Config.chunk

/-- R105, UNPAD, DCHNK, and ECHNK with F = 0: a non-empty whole number of blocks, at most 4096. -/
def lenBlocks (len : BitVec 13) : Bool :=
  Config.block ≤ len.toNat && len.toNat ≤ Config.chunk && len.toNat % Config.block == 0

/-- R105, ECHNK: a partial chunk if final, else whole blocks. -/
def lenEchnk (len : BitVec 13) (final : Bool) : Bool :=
  if final then lenPartial len else lenBlocks len

/-- The LEN check of R105, for each command; commands without LEN have none. -/
def lenLegal : Instr → Bool
  | .nop => true
  | .srst => true
  | .hclr => true
  | .hbyte _ => true
  | .hbuf len => lenPrefix len
  | .seedh => true
  | .seedr => true
  | .next => true
  | .nextn len => lenPrefix len
  | .ksgen => true
  | .ksld _ => true
  | .sha _ => true
  | .shd _ => true
  | .pvld _ => true
  | .eblk _ => true
  | .dblk _ => true
  | .eblks _ => true
  | .dblks _ => true
  | .cinit => true
  | .pad len => lenPartial len
  | .unpad len => lenBlocks len
  | .echnk len final => lenEchnk len final
  | .dchnk len _ => lenBlocks len

/-- R102: the BUF address of byte 0 of block `b`, `16*b`. -/
def blockAddr (b : BitVec 8) : Nat := Config.block * b.toNat

/-- R222: the pad count of a final chunk of `n` bytes, in 1..16. -/
def padCount (n : Nat) : Nat := Config.block - n % Config.block

end Sys2Proof.Machine
end

