-- ==== Sys2Proof/WellFormed.lean ====
section
/-!
DEFINITION. Which commands are well formed: those whose LEN is legal (spec/30_encoding.md R105). Every
other field is legal at each of its values (R101, R102).
-/

namespace Sys2Proof

/-- A legal command (R109, outcome 4): its LEN passes R105. -/
def Instr.wellFormed (i : Instr) : Bool := Machine.lenLegal i

end Sys2Proof
end

