-- ==== Sys2Proof/Decode.lean ====
section
/-!
DEFINITION. The decoder of the 32-bit command word, total and rejecting by name (spec/30_encoding.md
R100-R110), and the encoder (R121). LEN is judged by the command itself (its meaning), as R105 says;
`classify` puts the whole decoder of R109 together (log 9).
-/

namespace Sys2Proof

/-! ## Fields (R101) -/

/-- OP, bits 7:0. -/
def opField (w : Word) : BitVec 8 := w.extractLsb' 0 8

/-- ARG, bits 15:8. -/
def argField (w : Word) : BitVec 8 := w.extractLsb' 8 8

/-- LEN, bits 28:16. -/
def lenField (w : Word) : BitVec 13 := w.extractLsb' 16 13

/-- F, bit 29. -/
def finalField (w : Word) : Bool := w.getLsbD 29

/-! ## The opcode map (R106) -/

/-- The command R106 names for OP, with the fields R103 gives it; none where OP is unassigned (R107). -/
def commandOf (w : Word) : Option Instr :=
  match (opField w).toNat with
  | 0x00 => some .nop
  | 0x01 => some .srst
  | 0x10 => some .hclr
  | 0x11 => some (.hbyte (argField w))
  | 0x12 => some (.hbuf (lenField w))
  | 0x13 => some .seedh
  | 0x20 => some .seedr
  | 0x21 => some .next
  | 0x22 => some (.nextn (lenField w))
  | 0x23 => some .ksgen
  | 0x30 => some (.ksld (argField w))
  | 0x31 => some (.sha (argField w))
  | 0x32 => some (.shd (argField w))
  | 0x40 => some (.pvld (argField w))
  | 0x41 => some (.eblk (argField w))
  | 0x42 => some (.dblk (argField w))
  | 0x43 => some (.eblks (argField w))
  | 0x44 => some (.dblks (argField w))
  | 0x50 => some .cinit
  | 0x51 => some (.pad (lenField w))
  | 0x52 => some (.unpad (lenField w))
  | 0x53 => some (.echnk (lenField w) (finalField w))
  | 0x54 => some (.dchnk (lenField w) (finalField w))
  | _ => none

/-- R106: the opcode of each command. -/
def opcode : Instr → BitVec 8
  | .nop => 0x00
  | .srst => 0x01
  | .hclr => 0x10
  | .hbyte _ => 0x11
  | .hbuf _ => 0x12
  | .seedh => 0x13
  | .seedr => 0x20
  | .next => 0x21
  | .nextn _ => 0x22
  | .ksgen => 0x23
  | .ksld _ => 0x30
  | .sha _ => 0x31
  | .shd _ => 0x32
  | .pvld _ => 0x40
  | .eblk _ => 0x41
  | .dblk _ => 0x42
  | .eblks _ => 0x43
  | .dblks _ => 0x44
  | .cinit => 0x50
  | .pad _ => 0x51
  | .unpad _ => 0x52
  | .echnk _ _ => 0x53
  | .dchnk _ _ => 0x54

/-- R106: the bits of the word the command fixes. Four masks: all fields fixed, ARG used, LEN used,
LEN and F used. -/
def fixedMask : Instr → Word
  | .nop => 0xFFFFFFFF
  | .srst => 0xFFFFFFFF
  | .hclr => 0xFFFFFFFF
  | .hbyte _ => 0xFFFF00FF
  | .hbuf _ => 0xE000FFFF
  | .seedh => 0xFFFFFFFF
  | .seedr => 0xFFFFFFFF
  | .next => 0xFFFFFFFF
  | .nextn _ => 0xE000FFFF
  | .ksgen => 0xFFFFFFFF
  | .ksld _ => 0xFFFF00FF
  | .sha _ => 0xFFFF00FF
  | .shd _ => 0xFFFF00FF
  | .pvld _ => 0xFFFF00FF
  | .eblk _ => 0xFFFF00FF
  | .dblk _ => 0xFFFF00FF
  | .eblks _ => 0xFFFF00FF
  | .dblks _ => 0xFFFF00FF
  | .cinit => 0xFFFFFFFF
  | .pad _ => 0xE000FFFF
  | .unpad _ => 0xE000FFFF
  | .echnk _ _ => 0xC000FFFF
  | .dchnk _ _ => 0xC000FFFF

/-- R106: the value of the fixed bits; every command's match word is its opcode, all else zero. -/
def matchWord (i : Instr) : Word := (opcode i).setWidth 32

/-! ## The decoder (R109) -/

/-- Why a word is no command: an unassigned OP (R107), or a nonzero reserved or unused field (R104). -/
inductive DecodeError where
  | badOp
  | rsvd
deriving DecidableEq, Repr

/-- R109, steps 1 and 2: BADOP before RSVD, else the command with its fields. Total on all 2^32 words. -/
def decode (w : Word) : Except DecodeError Instr :=
  match commandOf w with
  | none => .error .badOp
  | some i => if w &&& fixedMask i = matchWord i then .ok i else .error .rsvd

/-- The four outcomes of R109. -/
inductive Verdict where
  | badOp
  | rsvd
  | len (i : Instr)
  | command (i : Instr)
deriving DecidableEq, Repr

/-- R109 whole: BADOP, then RSVD, then LEN, then a legal command. -/
def classify (w : Word) : Verdict :=
  match decode w with
  | .error .badOp => .badOp
  | .error .rsvd => .rsvd
  | .ok i => if i.wellFormed then .command i else .len i

/-! ## The encoder (R121) -/

/-- R121: `w = (final << 29) | (len << 16) | (arg << 8) | op`, with RSV = 0. -/
def packWord (final : Bool) (len : BitVec 13) (arg op : BitVec 8) : Word :=
  (BitVec.ofBool final).setWidth 32 <<< 29 ||| len.setWidth 32 <<< 16 ||| arg.setWidth 32 <<< 8 ||| op.setWidth 32

/-- R121: the word of a command; a field R103 marks unused is 0. -/
def encode (i : Instr) : Word :=
  match i with
  | .nop => packWord false 0 0 (opcode i)
  | .srst => packWord false 0 0 (opcode i)
  | .hclr => packWord false 0 0 (opcode i)
  | .hbyte c => packWord false 0 c (opcode i)
  | .hbuf len => packWord false len 0 (opcode i)
  | .seedh => packWord false 0 0 (opcode i)
  | .seedr => packWord false 0 0 (opcode i)
  | .next => packWord false 0 0 (opcode i)
  | .nextn len => packWord false len 0 (opcode i)
  | .ksgen => packWord false 0 0 (opcode i)
  | .ksld b => packWord false 0 b (opcode i)
  | .sha b => packWord false 0 b (opcode i)
  | .shd b => packWord false 0 b (opcode i)
  | .pvld b => packWord false 0 b (opcode i)
  | .eblk b => packWord false 0 b (opcode i)
  | .dblk b => packWord false 0 b (opcode i)
  | .eblks b => packWord false 0 b (opcode i)
  | .dblks b => packWord false 0 b (opcode i)
  | .cinit => packWord false 0 0 (opcode i)
  | .pad len => packWord false len 0 (opcode i)
  | .unpad len => packWord false len 0 (opcode i)
  | .echnk len final => packWord final len 0 (opcode i)
  | .dchnk len final => packWord final len 0 (opcode i)

/-- The command the decoder reads from the instruction whose bits are `w`, numbered as
spec/opcode_table.json numbers them; every command is one 32-bit word (R110), and bits at or above
`nbits` are 0. -/
def decodeTableWord (nbits w : Nat) : Option Instr :=
  match decode (BitVec.ofNat 32 (w % 2 ^ nbits)) with
  | .ok i => some i
  | .error _ => none

end Sys2Proof
end

