-- ==== Sys2Proof/Machine/State.lean ====
section
/-!
DEFINITION. The state of SB-CORE (spec/10_state.md R30, R56) as plain data, with the world outside it (the
events still to come and the answers of the host port), the model faults (spec/60_exceptions.md R309), and
the state after a hardware reset (R55).
-/

namespace Sys2Proof.Machine

/-- Bytes of BUF whose written mark is set, as (address, byte) pairs (R50). An address that is not listed
has no mark and holds no value: reading it is the model fault `unwrittenBufRead` (R309; log 2). -/
abbrev Memory := List Host.Cell

/-- STATUS.PHASE (R40): NOSEED = 0, SEEDED = 1, CHAINED = 2, DONE = 3. -/
inductive Phase where
  | noSeed
  | seeded
  | chained
  | done
deriving DecidableEq, Repr

/-- The error codes of spec/60_exceptions.md R301. -/
inductive ErrCode where
  | ok
  | badOp
  | rsvd
  | len
  | seq
  | pad
deriving DecidableEq, Repr

/-- The model faults of R309. -/
inductive Fault where
  /-- A host read, or a command, would read BUF byte `a`, whose written mark is clear (R50, R80, R309). Raised
  by host reads with BUSY = 0 and by HBUF, KSLD, SHA, SHD, PVLD, EBLK, DBLK, EBLKS, DBLKS, UNPAD, ECHNK and
  DCHNK before they write anything; it stops the machine. Safe: the hardware goes on with some byte. -/
  | unwrittenBufRead (a : Nat)
  /-- A host access of `n` bytes at offset `off` that breaks R73 or lies outside the window (R72, R74, R308).
  It never stops the machine: it is recorded in `State.fault` and never cleared. Safe. -/
  | busError (off n : Nat)
deriving DecidableEq, Repr

/-- Reasons to refuse an instruction. -/
inductive Refusal where
  /-- The instruction has no meaning yet; raised only by a refused arm of `exec`. Safe. No arm of this
  model is refused. -/
  | notModelled (mnemonic : String)
deriving DecidableEq, Repr

/-- An event of the total order of R85. The list of the events to come is given from outside (log 4). -/
inductive Event where
  /-- The host reads `n` bytes at window offset `off`: MemRead (R72). -/
  | read (off n : Nat)
  /-- The host writes the low `n` bytes of `v` at window offset `off`: MemWrite (R72). -/
  | write (off n : Nat) (v : Word)
  /-- The engine's turn: it completes the latched command, if there is one (R86). -/
  | engine
  /-- The hardware reset input is asserted (R340). -/
  | assertReset
  /-- The hardware reset input is released (R340). -/
  | releaseReset
deriving DecidableEq, Repr

/-- What a host access gets back. -/
inductive Response where
  /-- A legal read: `n` bytes of data, zero-extended to 32 bits. -/
  | data (v : Word)
  /-- A legal write was taken from the bus (applied, dropped or ignored). -/
  | done
  /-- A bus error; a read gets no data (R74). -/
  | busError
deriving DecidableEq, Repr

/-- The state of SB-CORE, and of what is connected to it. -/
structure State where
  /-- CURR, the generator state (R45). -/
  curr : DWord
  /-- HASH, the seed-derivation accumulator (R46). -/
  hash : DWord
  /-- SEED, the staging register the host writes (R43). -/
  seed : DWord
  /-- PREV, the chaining block (R47). -/
  prev : Block
  /-- KS, the keystream block (R48). -/
  ks : Block
  /-- BUF with its written marks (R49, R50). -/
  buf : Memory
  /-- RESULT (R41). -/
  result : BitVec 8
  /-- OUT_LEN (R42). -/
  outLen : BitVec 13
  /-- STATUS.BUSY (R36). -/
  busy : Bool
  /-- STATUS.ERRS (R37). -/
  errs : Bool
  /-- STATUS.OVR (R38). -/
  ovr : Bool
  /-- STATUS.ERR (R39). -/
  err : BitVec 4
  /-- STATUS.PHASE (R40). -/
  phase : Phase
  /-- LATCH: the accepted command word until its completion (R51). -/
  latch : Option Word
  /-- The model fault recorded, never cleared (R56, R308; log 3). -/
  fault : Option Fault
  /-- The level of the hardware reset input (R340; the model's own field, log 7). -/
  resetAsserted : Bool
  /-- The events to come, oldest first (R85; the model's own field, log 4). -/
  events : List Event
  /-- The answers of the host port, newest first (the model's own field, log 5). -/
  responses : List Response
  /-- How many free values have been drawn (the model's own field, log 6). -/
  draws : Nat
deriving DecidableEq, Repr

/-- What one step, and the meaning of one command, answers. -/
abbrev Result := Host.Outcome State Fault Refusal

/-- A block of sixteen zero bytes, the reset value of PREV and KS (R55). -/
def zeroBlock : Block := Vector.replicate 16 0

/-- The machine right after a hardware reset (R55, R340). R55 gives every register; `fault`,
`resetAsserted`, `events`, `responses` and `draws` are the model's (DESIGN CHOICE, log 15). -/
def State.reset : State where
  curr := 0
  hash := Config.hashInit
  seed := 0
  prev := zeroBlock
  ks := zeroBlock
  buf := []
  result := 0
  outLen := 0
  busy := false
  errs := false
  ovr := false
  err := 0
  phase := .noSeed
  latch := none
  fault := none
  resetAsserted := false
  events := []
  responses := []
  draws := 0

end Sys2Proof.Machine
end

