-- ==== Sys2Proof/Machine/Flags.lean ====
section
/-!
DEFINITION. The STATUS register (spec/10_state.md R35): the values of its fields and the word the host reads.
SB-CORE has no arithmetic flags (R53).
-/

namespace Sys2Proof.Machine

/-- The value of STATUS.ERR for each code (spec/60_exceptions.md R301). -/
def ErrCode.code : ErrCode → BitVec 4
  | .ok => 0
  | .badOp => 1
  | .rsvd => 2
  | .len => 3
  | .seq => 4
  | .pad => 5

/-- The value of STATUS.PHASE for each phase (R40). -/
def Phase.code : Phase → BitVec 2
  | .noSeed => 0
  | .seeded => 1
  | .chained => 2
  | .done => 3

/-- STATUS as the host reads it (R35): PHASE in 9:8, ERR in 7:4, OVR, ERRS and BUSY in bits 2, 1 and 0; bit 3
and bits 31:10 are 0. -/
def statusWord (s : State) : Word :=
  s.phase.code.setWidth 32 <<< 8 ||| s.err.setWidth 32 <<< 4 ||| (BitVec.ofBool s.ovr).setWidth 32 <<< 2
    ||| (BitVec.ofBool s.errs).setWidth 32 <<< 1 ||| (BitVec.ofBool s.busy).setWidth 32

end Sys2Proof.Machine
end

