-- ==== Sys2Proof/Machine/Ops.lean ====
section
/-!
DEFINITION. The operations the commands and the host port share: BUF with its written marks
(spec/10_state.md R49, R50; spec/20_memory.md R84), command completion and the raising of an error
(spec/20_memory.md R86, spec/60_exceptions.md R300), and the checks of spec/60_exceptions.md R310.
-/

namespace Sys2Proof.Machine

/-! ## BUF and its written marks -/

/-- The byte at BUF address `a`; none where its written mark is clear (R50). -/
def Memory.read : Memory → Nat → Option Byte
  | [], _ => none
  | (k, v) :: m, a => if k = a then some v else Memory.read m a

/-- Store a byte at BUF address `a` and set its mark, keeping the addresses strictly rising. -/
def Memory.write : Memory → Nat → Byte → Memory
  | [], a, b => [(a, b)]
  | (k, v) :: m, a, b =>
    if a < k then (a, b) :: (k, v) :: m
    else if a = k then (a, b) :: m
    else (k, v) :: Memory.write m a b

/-- Store bytes at `a`, `a+1`, ... in ascending order. -/
def Memory.writeBytes : Memory → Nat → List Byte → Memory
  | m, _, [] => m
  | m, a, b :: bs => Memory.writeBytes (Memory.write m a b) (a + 1) bs

/-- Read `BUF[a .. a+n-1]`, or the lowest address among them whose written mark is clear (R309; log 2). -/
def Memory.readVec (m : Memory) (a : Nat) : (n : Nat) → Except Nat (Vector Byte n)
  | 0 => .ok #v[]
  | n + 1 =>
    match Memory.readVec m a n with
    | .error e => .error e
    | .ok v =>
      match m.read (a + n) with
      | none => .error (a + n)
      | some b => .ok (v.push b)

/-- Read the 16 bytes at address `a` as a block (R84: byte `i` of the block is `BUF[a + i]`). -/
def Memory.readBlock (m : Memory) (a : Nat) : Except Nat Block := m.readVec a 16

/-- Store a block at address `a` (R84). -/
def Memory.writeBlock (m : Memory) (a : Nat) (B : Block) : Memory := m.writeBytes a B.toList

/-- Read the `k` blocks that start at address `a`, in ascending order. -/
def Memory.readBlocks (m : Memory) : Nat → Nat → Except Nat (List Block)
  | _, 0 => .ok []
  | a, k + 1 => do
    let B ← m.readBlock a
    let Bs ← Memory.readBlocks m (a + Config.block) k
    return B :: Bs

/-- Store blocks one after another from address `a`. -/
def Memory.writeBlocks : Memory → Nat → List Block → Memory
  | m, _, [] => m
  | m, a, B :: Bs => Memory.writeBlocks (Memory.writeBlock m a B) (a + Config.block) Bs

/-- The canonical form of BUF: addresses strictly rising, each inside 0..4095 (R49). -/
abbrev Memory.wf (m : Memory) : Prop :=
  m.Pairwise (fun c d => c.1 < d.1) ∧ ∀ c ∈ m, c.1 < Config.chunk

/-! ## Completion, and taking an error -/

/-- The completion of the latched command with a code (R86, R300): ERR is written, ERRS is set if the code is
not 0, LATCH is emptied and BUSY cleared, all in one step. -/
def complete (code : ErrCode) (s : State) : State :=
  { s with err := code.code, errs := s.errs || code != .ok, latch := none, busy := false }

/-- `raise Error(code)` (R14, R300): the command ends here, with what it has done so far standing. There is no
trap, vector or saved state (R311), and no return (R312). -/
def raiseError (code : ErrCode) (s : State) : Result := .next (complete code s)

/-- The end of a command that raised nothing: it completes with ERR = 0 (R300). -/
def finish (s : State) : Result := .next (complete .ok s)

/-! ## The checks, in the order of R310 -/

/-- R304: an illegal LEN completes with LEN and no other effect. -/
def requireLen (legal : Bool) (s : State) (k : Result) : Result :=
  if legal then k else raiseError .len s

/-- R305: a wrong PHASE completes with SEQ and no other effect. -/
def requirePhase (p : Phase) (s : State) (k : Result) : Result :=
  if s.phase = p then k else raiseError .seq s

/-- R309, R310 step 5: go on with the bytes read from BUF, or stop with the model fault at the lowest unmarked
address, before the command writes any state. -/
def reading {α : Type} (r : Except Nat α) (k : α → Result) : Result :=
  match r with
  | .error a => .fault (.unwrittenBufRead a)
  | .ok x => k x

end Sys2Proof.Machine
end

