-- ==== Sys2Proof/Machine/Control.lean ====
section
/-!
DEFINITION. The control commands (spec/45_control.md): NOP (R280) and SRST (R281).
-/

namespace Sys2Proof.Machine

/-- R280: NOP does nothing but complete. -/
def execNop (s : State) : Result := finish s

/-- R281, R341: every register takes the "after SRST" value of spec/10_state.md R55. BUF and its marks are
kept, and the recorded model fault is never cleared (R308). -/
def softReset (s : State) : State :=
  { s with
    curr := 0
    hash := 0
    seed := 0
    prev := zeroBlock
    ks := zeroBlock
    result := 0
    outLen := 0
    errs := false
    ovr := false
    phase := .noSeed }

/-- R281: SRST. -/
def execSrst (s : State) : Result := finish (softReset s)

end Sys2Proof.Machine
end

