-- ==== Sys2Proof/Machine/Generator.lean ====
section
/-!
DEFINITION. The Byte Stream Generator (spec/40_generator.md): the pure functions `lcg_step`, `next` and
`next_n` (R140-R142), and the meanings of SEEDR, NEXT, NEXTN and KSGEN (R144-R147).
-/

namespace Sys2Proof.Machine

/-- R140: one LCG step, product and sum modulo 2^64, then the modulus on the state itself. -/
def lcgStep (s : DWord) : DWord := (Config.lcgA * s + Config.lcgC) % Config.lcgM

/-- R141: the byte a draw returns is the low byte of the NEW state. -/
def drawnByte (s : DWord) : Byte := s.extractLsb' 0 8

/-- R142: `next_n(n)` from state `s`: the `n` bytes in draw order, and the state after them. -/
def drawN : (n : Nat) → DWord → Vector Byte n × DWord
  | 0, s => (#v[], s)
  | n + 1, s =>
    match drawN n s with
    | (bytes, c) => (bytes.push (drawnByte (lcgStep c)), lcgStep c)

/-- The 16-byte stream drawn for one block, and the state after it (R142, R147). -/
def drawBlock (s : DWord) : Block × DWord := drawN 16 s

/-- R144: SEEDR. -/
def execSeedr (s : State) : Result :=
  finish { s with curr := s.seed, phase := .seeded }

/-- R145: NEXT. -/
def execNext (s : State) : Result :=
  finish { s with curr := lcgStep s.curr, result := drawnByte (lcgStep s.curr) }

/-- R146: NEXTN len. RESULT takes the last byte drawn, if any was. -/
def execNextn (len : BitVec 13) (s : State) : Result :=
  requireLen (lenPrefix len) s <|
    let drawn := drawN len.toNat s.curr
    finish { s with
      buf := s.buf.writeBytes 0 drawn.1.toList
      curr := drawn.2
      result := drawn.1.toList.getLast?.getD s.result }

/-- R147: KSGEN. -/
def execKsgen (s : State) : Result :=
  finish { s with ks := (drawBlock s.curr).1, curr := (drawBlock s.curr).2 }

end Sys2Proof.Machine
end

