-- ==== Sys2Proof/Machine/Permuter.lean ====
section
/-!
DEFINITION. The Block Permuter (spec/41_permuter.md): the swap step and the two traversal orders
(R170-R172), and the meanings of KSLD, SHA and SHD (R174-R176).
-/

namespace Sys2Proof.Machine

/-- R170: the low nibble of a stream byte, a position in the block. -/
def loNibble (x : Byte) : Fin 16 := (x.extractLsb' 0 4).toFin

/-- R170: the high nibble of a stream byte, a position in the block. -/
def hiNibble (x : Byte) : Fin 16 := (x.extractLsb' 4 4).toFin

/-- R170: exchange the two bytes of `B` that stream byte `i` names. -/
def swapStep (S : Block) (B : Block) (i : Fin 16) : Block :=
  B.swap (loNibble S[i]) (hiNibble S[i])

/-- R171: the sixteen swap steps, `i` = 0 first. -/
def shuffleAsc (B S : Block) : Block := (List.finRange 16).foldl (swapStep S) B

/-- R172: the same sixteen swap steps, `i` = 15 first. -/
def shuffleDesc (B S : Block) : Block := (List.finRange 16).reverse.foldl (swapStep S) B

/-- R174: KSLD b. -/
def execKsld (b : BitVec 8) (s : State) : Result :=
  reading (s.buf.readBlock (blockAddr b)) fun B =>
    finish { s with ks := B }

/-- R175: SHA b. -/
def execSha (b : BitVec 8) (s : State) : Result :=
  reading (s.buf.readBlock (blockAddr b)) fun B =>
    finish { s with buf := s.buf.writeBlock (blockAddr b) (shuffleAsc B s.ks) }

/-- R176: SHD b. -/
def execShd (b : BitVec 8) (s : State) : Result :=
  reading (s.buf.readBlock (blockAddr b)) fun B =>
    finish { s with buf := s.buf.writeBlock (blockAddr b) (shuffleDesc B s.ks) }

end Sys2Proof.Machine
end

