-- ==== Sys2Proof/Machine/BlockTransform.lean ====
section
/-!
DEFINITION. The Chained Block Transform (spec/42_block_transform.md): the two pure transforms (R190, R191),
their threading through a sequence of blocks with a fresh stream for each, and the meanings of PVLD, EBLK,
DBLK, EBLKS and DBLKS (R193-R197).
-/

namespace Sys2Proof.Machine

/-- The elementwise XOR of two blocks (R190, R191, R93). -/
def xorBlock (A B : Block) : Block := Vector.ofFn fun i => A[i] ^^^ B[i]

/-- R190: XOR with `prev`, ascending shuffle, XOR with the stream; the output is also the next `prev`. -/
def encBlock (B P S : Block) : Block × Block :=
  (xorBlock (shuffleAsc (xorBlock B P) S) S, xorBlock (shuffleAsc (xorBlock B P) S) S)

/-- R191: XOR with the stream, descending shuffle, XOR with `prev`; the input is the next `prev`. -/
def decBlock (B P S : Block) : Block × Block :=
  (xorBlock (shuffleDesc (xorBlock B S) S) P, B)

/-- What is carried from block to block: CURR, PREV and KS. -/
structure Chain where
  curr : DWord
  prev : Block
  ks : Block
deriving DecidableEq, Repr

/-- The chain of a state. -/
def State.chain (s : State) : Chain := { curr := s.curr, prev := s.prev, ks := s.ks }

/-- A state with another chain. -/
def State.withChain (s : State) (c : Chain) : State :=
  { s with curr := c.curr, prev := c.prev, ks := c.ks }

/-- R194: draw a stream into KS and encrypt one block with it. -/
def encStep (c : Chain) (B : Block) : Block × Chain :=
  let stream := drawBlock c.curr
  let out := encBlock B c.prev stream.1
  (out.1, { curr := stream.2, prev := out.2, ks := stream.1 })

/-- R195: draw a stream into KS and decrypt one block with it. -/
def decStep (c : Chain) (B : Block) : Block × Chain :=
  let stream := drawBlock c.curr
  let out := decBlock B c.prev stream.1
  (out.1, { curr := stream.2, prev := out.2, ks := stream.1 })

/-- The loop of R233 and R234: one step a block, in ascending order, threading the chain. -/
def runBlocks (f : Chain → Block → Block × Chain) : Chain → List Block → List Block × Chain
  | c, [] => ([], c)
  | c, B :: Bs =>
    match f c B with
    | (out, c') =>
      match runBlocks f c' Bs with
      | (outs, c'') => (out :: outs, c'')

/-- The shared form of EBLK and DBLK: one step on `blk(b)` with a fresh stream. -/
def stepBlock (f : Chain → Block → Block × Chain) (b : BitVec 8) (s : State) : Result :=
  reading (s.buf.readBlock (blockAddr b)) fun B =>
    let out := f s.chain B
    finish { s.withChain out.2 with buf := s.buf.writeBlock (blockAddr b) out.1 }

/-- The shared form of EBLKS and DBLKS: one transform of `blk(b)` with the KS held; no draw. -/
def storedBlock (f : Block → Block → Block → Block × Block) (b : BitVec 8) (s : State) : Result :=
  reading (s.buf.readBlock (blockAddr b)) fun B =>
    let out := f B s.prev s.ks
    finish { s with prev := out.2, buf := s.buf.writeBlock (blockAddr b) out.1 }

/-- R193: PVLD b. -/
def execPvld (b : BitVec 8) (s : State) : Result :=
  reading (s.buf.readBlock (blockAddr b)) fun B =>
    finish { s with prev := B }

/-- R194: EBLK b. -/
def execEblk (b : BitVec 8) (s : State) : Result := stepBlock encStep b s

/-- R195: DBLK b. -/
def execDblk (b : BitVec 8) (s : State) : Result := stepBlock decStep b s

/-- R196: EBLKS b. -/
def execEblks (b : BitVec 8) (s : State) : Result := storedBlock encBlock b s

/-- R197: DBLKS b. -/
def execDblks (b : BitVec 8) (s : State) : Result := storedBlock decBlock b s

end Sys2Proof.Machine
end

