-- ==== Sys2Proof/Machine/Framer.lean ====
section
/-!
DEFINITION. The Stream Framer (spec/43_framer.md): padding and unpadding (R222-R224, R236), and the meanings
of CINIT, PAD, UNPAD, ECHNK and DCHNK (R221, R223, R225, R233, R234).
-/

namespace Sys2Proof.Machine

/-- R223: the pad bytes of a chunk of `n` bytes: `pad_count(n)` bytes, each of that value. -/
def padBytes (n : Nat) : List Byte := List.replicate (padCount n) (BitVec.ofNat 8 (padCount n))

/-- R224, R236: the output length of an unpadded range `BUF[0..n-1]`. Only the last byte `v` is read; `v > n`
completes with PAD and OUT_LEN = 0, with everything done before standing. -/
def unpadTail (n : Nat) (s : State) : Result :=
  reading (s.buf.readVec (n - 1) 1) fun last =>
    let v := last[0].toNat
    if v > n then raiseError .pad { s with outLen := 0 }
    else finish { s with outLen := BitVec.ofNat 13 (n - v) }

/-- R221: CINIT. -/
def execCinit (s : State) : Result :=
  requirePhase .seeded s <|
    finish { s with
      prev := (drawBlock s.curr).1
      curr := (drawBlock s.curr).2
      phase := .chained }

/-- R223: PAD len. -/
def execPad (len : BitVec 13) (s : State) : Result :=
  requireLen (lenPartial len) s <|
    finish { s with
      buf := s.buf.writeBytes len.toNat (padBytes len.toNat)
      outLen := BitVec.ofNat 13 (len.toNat + padCount len.toNat) }

/-- R225: UNPAD len. -/
def execUnpad (len : BitVec 13) (s : State) : Result :=
  requireLen (lenBlocks len) s <| unpadTail len.toNat s

/-- R233: the chunk length after padding. -/
def paddedLen (len : BitVec 13) (final : Bool) : Nat :=
  if final then len.toNat + padCount len.toNat else len.toNat

/-- R233: BUF with the padding of a final chunk. -/
def paddedBuf (len : BitVec 13) (final : Bool) (m : Memory) : Memory :=
  if final then m.writeBytes len.toNat (padBytes len.toNat) else m

/-- R233: ECHNK len[, F]. The pad bytes are marked when the blocks are read, so the read stops exactly where a
byte of `BUF[0..len-1]` is unmarked, and a stop leaves nothing written. -/
def execEchnk (len : BitVec 13) (final : Bool) (s : State) : Result :=
  requireLen (lenEchnk len final) s <|
  requirePhase .chained s <|
  reading ((paddedBuf len final s.buf).readBlocks 0 (paddedLen len final / Config.block)) fun blocks =>
    let out := runBlocks encStep s.chain blocks
    finish { s.withChain out.2 with
      buf := (paddedBuf len final s.buf).writeBlocks 0 out.1
      outLen := BitVec.ofNat 13 (paddedLen len final)
      phase := if final then .done else .chained }

/-- R234: DCHNK len[, F]. The unpad value is read from the decrypted output (spec/90_conflicts.md C1). -/
def execDchnk (len : BitVec 13) (final : Bool) (s : State) : Result :=
  requireLen (lenBlocks len) s <|
  requirePhase .chained s <|
  reading (s.buf.readBlocks 0 (len.toNat / Config.block)) fun blocks =>
    let out := runBlocks decStep s.chain blocks
    let decrypted := { s.withChain out.2 with buf := s.buf.writeBlocks 0 out.1 }
    if final then unpadTail len.toNat { decrypted with phase := .done }
    else finish { decrypted with outLen := len }

end Sys2Proof.Machine
end

