-- ==== Sys2Proof/Machine/SeedDerivation.lean ====
section
/-!
DEFINITION. Seed Derivation (spec/44_seed_derivation.md): the hash step (R260-R262) and the meanings of HCLR,
HBYTE, HBUF and SEEDH (R263-R266).
-/

namespace Sys2Proof.Machine

/-- R261: a password byte at SEED_W = 64 bits, zero-extended or sign-extended as PW_CHAR_SIGNED says. -/
def ext64 (signed : Bool) (c : Byte) : DWord :=
  if signed then c.signExtend Config.seedW else c.zeroExtend Config.seedW

/-- R260: one hash step; every operation wraps modulo 2^64. -/
def hashStep (signed : Bool) (h : DWord) (c : Byte) : DWord :=
  ext64 signed c + h <<< Config.hashS1 + h <<< Config.hashS2 - h

/-- R262: the seed of a password, first byte first. -/
def seedOf (signed : Bool) (p : List Byte) : DWord := p.foldl (hashStep signed) Config.hashInit

/-- R263: HCLR. -/
def execHclr (s : State) : Result := finish { s with hash := Config.hashInit }

/-- R264: HBYTE c. -/
def execHbyte (c : BitVec 8) (s : State) : Result :=
  finish { s with hash := hashStep Config.pwCharSigned s.hash c }

/-- R265: HBUF len, lowest address first. -/
def execHbuf (len : BitVec 13) (s : State) : Result :=
  requireLen (lenPrefix len) s <|
  reading (s.buf.readVec 0 len.toNat) fun bytes =>
    finish { s with hash := bytes.toList.foldl (hashStep Config.pwCharSigned) s.hash }

/-- R266: SEEDH. -/
def execSeedh (s : State) : Result :=
  finish { s with curr := s.hash, phase := .seeded }

end Sys2Proof.Machine
end

