-- ==== Sys2Proof/Machine/Dispatch.lean ====
section
/-!
DEFINITION. The effect and completion of a command (spec/20_memory.md R86): one arm per constructor of
`Instr`, each a direct call of that command's meaning.
-/

namespace Sys2Proof.Machine

def exec (i : Instr) (s : State) : Host.Outcome State Fault Refusal :=
  match i with
  -- 45_control.md
  | .nop => Sys2Proof.Machine.execNop s
  | .srst => Sys2Proof.Machine.execSrst s
  -- 44_seed_derivation.md
  | .hclr => Sys2Proof.Machine.execHclr s
  | .hbyte c => Sys2Proof.Machine.execHbyte c s
  | .hbuf len => Sys2Proof.Machine.execHbuf len s
  | .seedh => Sys2Proof.Machine.execSeedh s
  -- 40_generator.md
  | .seedr => Sys2Proof.Machine.execSeedr s
  | .next => Sys2Proof.Machine.execNext s
  | .nextn len => Sys2Proof.Machine.execNextn len s
  | .ksgen => Sys2Proof.Machine.execKsgen s
  -- 41_permuter.md
  | .ksld b => Sys2Proof.Machine.execKsld b s
  | .sha b => Sys2Proof.Machine.execSha b s
  | .shd b => Sys2Proof.Machine.execShd b s
  -- 42_block_transform.md
  | .pvld b => Sys2Proof.Machine.execPvld b s
  | .eblk b => Sys2Proof.Machine.execEblk b s
  | .dblk b => Sys2Proof.Machine.execDblk b s
  | .eblks b => Sys2Proof.Machine.execEblks b s
  | .dblks b => Sys2Proof.Machine.execDblks b s
  -- 43_framer.md
  | .cinit => Sys2Proof.Machine.execCinit s
  | .pad len => Sys2Proof.Machine.execPad len s
  | .unpad len => Sys2Proof.Machine.execUnpad len s
  | .echnk len final => Sys2Proof.Machine.execEchnk len final s
  | .dchnk len final => Sys2Proof.Machine.execDchnk len final s

end Sys2Proof.Machine
end

