-- ==== Sys2Proof/Machine/HostPort.lean ====
section
/-!
DEFINITION. The host port (spec/20_memory.md sections 1 and 2): which accesses are legal (R73), the register
map (spec/10_state.md R31), reads and writes with BUSY = 0 and with BUSY = 1 (R77-R82), the bus error
(R74, R308), and the hardware reset input (spec/70_reset_and_hazards.md R340).
-/

namespace Sys2Proof.Machine

/-! ## Addresses and lanes -/

/-- R70: the window offset of a bus address; none outside the window, which does not reach SB-CORE (R72). -/
def windowOffset (addr : Nat) : Option Nat :=
  if Config.sbBase ≤ addr ∧ addr < Config.sbBase + Config.windowSize then some (addr - Config.sbBase) else none

/-- R73: BUF takes naturally aligned accesses of 1, 2 and 4 bytes; the register region aligned ones of 4. An
offset outside the window is not legal (R72). -/
def legalAccess (off n : Nat) : Bool :=
  if off < Config.bufBase then n == 4 && off % 4 == 0
  else off < Config.windowSize && (n == 1 || n == 2 || n == 4) && off % n == 0

/-- R75: bytes to a word, the first in bits [7:0]; zero above them. -/
def leWord : List Byte → Word
  | [] => 0
  | b :: bs => b.setWidth 32 ||| leWord bs <<< 8

/-- R75: the low `n` bytes of a word, bits [7:0] first. -/
def leBytes (n : Nat) (v : Word) : List Byte := (List.range n).map fun i => v.extractLsb' (8 * i) 8

/-- R76: word `k` of a block register, bytes 4k to 4k+3 little-endian. -/
def blockWord (B : Block) (k : Fin 4) : Word :=
  leWord [B[4 * k.val], B[4 * k.val + 1], B[4 * k.val + 2], B[4 * k.val + 3]]

/-! ## The register map (R31) -/

/-- R31, R77: what a legal register read at an offset returns. CMD and the reserved offsets read 0. -/
def regRead (off : Nat) (s : State) : Word :=
  match off with
  | 0x000 => Config.idWord
  | 0x008 => statusWord s
  | 0x00C => s.result.setWidth 32
  | 0x010 => s.outLen.setWidth 32
  | 0x018 => s.seed.extractLsb' 0 32
  | 0x01C => s.seed.extractLsb' 32 32
  | 0x020 => s.curr.extractLsb' 0 32
  | 0x024 => s.curr.extractLsb' 32 32
  | 0x028 => s.hash.extractLsb' 0 32
  | 0x02C => s.hash.extractLsb' 32 32
  | 0x030 => blockWord s.prev 0
  | 0x034 => blockWord s.prev 1
  | 0x038 => blockWord s.prev 2
  | 0x03C => blockWord s.prev 3
  | 0x040 => blockWord s.ks 0
  | 0x044 => blockWord s.ks 1
  | 0x048 => blockWord s.ks 2
  | 0x04C => blockWord s.ks 3
  | _ => 0

/-- R43, R76: a SEED_W-bit value from its HI and LO words. -/
def joinWords (hi lo : Word) : DWord := hi.setWidth Config.seedW <<< 32 ||| lo.setWidth Config.seedW

/-- R34, R86: acceptance of a command word. -/
def acceptCommand (w : Word) (s : State) : State := { s with latch := some w, busy := true }

/-- R78: a legal register write with BUSY = 0. Every offset but CMD, SEED_LO and SEED_HI ignores it. -/
def regWrite (off : Nat) (v : Word) (s : State) : State :=
  match off with
  | 0x004 => acceptCommand v s
  | 0x018 => { s with seed := joinWords (s.seed.extractLsb' 32 32) v }
  | 0x01C => { s with seed := joinWords v (s.seed.extractLsb' 0 32) }
  | _ => s

/-- R82: the offsets whose read is exact while BUSY = 1: ID, STATUS, CMD and the reserved register offsets. -/
def readableBusy (off : Nat) : Bool :=
  off == 0x000 || off == 0x004 || off == 0x008 || off == 0x014 || (0x050 ≤ off && off < Config.bufBase)

/-- R38, R82: the offsets whose write is dropped with OVR while BUSY = 1: CMD, SEED_LO, SEED_HI and BUF. -/
def droppedBusy (off : Nat) : Bool :=
  off == 0x004 || off == 0x018 || off == 0x01C || Config.bufBase ≤ off

/-! ## Answers of the port -/

/-- The host gets an answer. -/
def respond (r : Response) (s : State) : State := { s with responses := r :: s.responses }

/-- R74, R308: a bus error is answered and recorded, and changes nothing else. A fault recorded before stays
(log 3). -/
def busError (off n : Nat) (s : State) : State :=
  respond .busError { s with fault := s.fault <|> some (.busError off n) }

/-- R82, R340: an unspecified read answers with a free value of `n` bytes and records no fault. -/
def freeRead (n : Nat) (s : State) : State :=
  respond (.data (leWord (leBytes n (Config.freeWord s.draws)))) { s with draws := s.draws + 1 }

/-! ## Host accesses -/

/-- MemRead(off, n) (R72-R77, R80, R82, R340). -/
def hostRead (off n : Nat) (s : State) : Result :=
  if !legalAccess off n then .next (busError off n s)
  else if s.resetAsserted then .next (freeRead n s)
  else if s.busy && !readableBusy off then .next (freeRead n s)
  else if off < Config.bufBase then .next (respond (.data (regRead off s)) s)
  else reading (s.buf.readVec (off - Config.bufBase) n) fun bytes =>
    .next (respond (.data (leWord bytes.toList)) s)

/-- MemWrite(off, n, v) (R72-R75, R78, R79, R82, R340). -/
def hostWrite (off n : Nat) (v : Word) (s : State) : Result :=
  if !legalAccess off n then .next (busError off n s)
  else if s.resetAsserted then .next (respond .done s)
  else if s.busy then
    .next (respond .done (if droppedBusy off then { s with ovr := true } else s))
  else if off < Config.bufBase then .next (respond .done (regWrite off v s))
  else .next (respond .done { s with buf := s.buf.writeBytes (off - Config.bufBase) (leBytes n v) })

/-! ## The hardware reset input (R340) -/

/-- R340: a command latched when reset is asserted is discarded. -/
def assertReset (s : State) : State :=
  { s with resetAsserted := true, latch := none, busy := false }

/-- R55: every register at its value after hardware reset, every written mark cleared. The recorded model
fault stays (R308), and so does what is outside SB-CORE. -/
def hardwareReset (s : State) : State :=
  { State.reset with
    fault := s.fault
    resetAsserted := s.resetAsserted
    events := s.events
    responses := s.responses
    draws := s.draws }

/-- R340: when reset is released, the state holds its values after hardware reset. Releasing an input that is
not asserted is no event. -/
def releaseReset (s : State) : State :=
  if s.resetAsserted then { hardwareReset s with resetAsserted := false } else s

end Sys2Proof.Machine
end

