-- ==== Sys2Proof/Machine/Engine.lean ====
section
/-!
DEFINITION. The engine's step (spec/20_memory.md R86): completion of the latched word, and the effect of each
event of the total order (R85).
-/

namespace Sys2Proof.Machine

/-- The completion of a command word: an undecodable word completes with its error (R302, R303), any other
with the outcome of its command. -/
def completeWord (w : Word) (s : State) : Result :=
  match decode w with
  | .error .badOp => raiseError .badOp s
  | .error .rsvd => raiseError .rsvd s
  | .ok i => exec i s

/-- R86: the engine's step is enabled exactly when LATCH holds a word; it is not taken while reset is asserted
(R340), and without a word the engine does nothing. -/
def engineStep (s : State) : Result :=
  if s.resetAsserted then .next s
  else
    match s.latch with
    | none => .next s
    | some w => completeWord w s

/-- The effect of one event. -/
def takeEvent (e : Event) (s : State) : Result :=
  match e with
  | .read off n => hostRead off n s
  | .write off n v => hostWrite off n v s
  | .engine => engineStep s
  | .assertReset => .next (assertReset s)
  | .releaseReset => .next (releaseReset s)

/-- The event that comes next. When none waits it is the engine's turn, so every accepted command completes
(R361; log 4). -/
def nextEvent (s : State) : Event × State :=
  match s.events with
  | [] => (.engine, s)
  | e :: rest => (e, { s with events := rest })

/-- R34, R86: the state in which the command word is latched and the next event is the engine's. -/
def withCommand (w : Word) (s : State) : State :=
  { acceptCommand w s with resetAsserted := false, events := .engine :: s.events }

end Sys2Proof.Machine
end

