-- ==== Sys2Proof/Machine/Step.lean ====
section
/-!
DEFINITION. One step of SB-CORE: the next event of the total order of events (spec/20_memory.md R85), one
host access, one engine completion or one edge of the reset input.
-/

namespace Sys2Proof.Machine

/-- One step: the next event happens. -/
def step (s : State) : Host.Outcome State Fault Refusal :=
  takeEvent (nextEvent s).1 (nextEvent s).2

/-- The state with the command word whose bits are `w` (bits at or above `nbits` zero) accepted into LATCH, and
the engine's completion the very next event. SB-CORE has no program counter and fetches nothing (R52, R90):
this stands for the host's CMD write (log 8). -/
def State.withFetchWord (s : State) (nbits w : Nat) : State :=
  withCommand (BitVec.ofNat 32 (w % 2 ^ nbits)) s

end Sys2Proof.Machine
end

