-- ==== Sys2Proof/Safety.lean ====
section
/-!
DEFINITION. What a good run is (spec/60_exceptions.md R308: a run that records a model fault is not a good
run), and the invariant of the reachable states (spec/10_state.md R39, R42, R45, R50, R56).
-/

namespace Sys2Proof.Safety

open Sys2Proof.Machine

/-- R308: nothing has recorded a model fault so far. -/
abbrev Good (s : State) : Prop := s.fault = none

/-- What holds in every reachable state. -/
structure Inv (s : State) : Prop where
  /-- BUF is in canonical form and inside 0..4095 (R49). -/
  bufWf : s.buf.wf
  /-- `latch.isSome = busy` (R36, R51, R56). -/
  latchBusy : s.latch.isSome = s.busy
  /-- OUT_LEN is in 0..4096 (R42). -/
  outLenLe : s.outLen.toNat ≤ Config.chunk
  /-- ERR is one of the codes 0 to 5 (R39). -/
  errLe : s.err.toNat ≤ 5
  /-- A nonzero ERR shows in ERRS (R37). -/
  errErrs : s.err ≠ 0 → s.errs = true
  /-- Once the chain is initialised, CURR is a value of the generator (R45). -/
  currLt : s.phase = .chained ∨ s.phase = .done → s.curr < Config.lcgM
  /-- No command is latched while reset is asserted (R340). -/
  resetIdle : s.resetAsserted = true → s.latch = none

end Sys2Proof.Safety
end

