-- ==== Sys2Proof/Certificates/Slice0/Obligations.lean ====
section
/-!
DEFINITION. The statements for the provers, from the numbered rules of spec/. First the words they use, written
from the spec's own tables; then one definition a statement, each docstring naming the rule it formalises.
-/

namespace Sys2Proof.Certificates

open Sys2Proof.Machine

/-! ## The opcode map and the tables of the spec, as lists -/

/-- The rows of R106: match and mask. -/
def opcodeRows : List (Word × Word) :=
  [(0x00000000, 0xFFFFFFFF), (0x00000001, 0xFFFFFFFF), (0x00000010, 0xFFFFFFFF), (0x00000011, 0xFFFF00FF),
   (0x00000012, 0xE000FFFF), (0x00000013, 0xFFFFFFFF), (0x00000020, 0xFFFFFFFF), (0x00000021, 0xFFFFFFFF),
   (0x00000022, 0xE000FFFF), (0x00000023, 0xFFFFFFFF)] ++
  [(0x00000030, 0xFFFF00FF), (0x00000031, 0xFFFF00FF), (0x00000032, 0xFFFF00FF), (0x00000040, 0xFFFF00FF),
   (0x00000041, 0xFFFF00FF), (0x00000042, 0xFFFF00FF), (0x00000043, 0xFFFF00FF), (0x00000044, 0xFFFF00FF)] ++
  [(0x00000050, 0xFFFFFFFF), (0x00000051, 0xE000FFFF), (0x00000052, 0xE000FFFF), (0x00000053, 0xC000FFFF),
   (0x00000054, 0xC000FFFF)]

/-- R106, R107: OP, bits 7:0 of the word, is the opcode of some row. -/
def opAssigned (w : Word) : Prop := ∃ r ∈ opcodeRows, w.extractLsb' 0 8 = r.1.extractLsb' 0 8

/-- R104: the word is one of the legal words of some row. -/
def fitsRow (w : Word) : Prop := ∃ r ∈ opcodeRows, w &&& r.2 = r.1

/-- R105: the legal values of LEN for each command; true where the command has none. -/
def legalLen : Instr → Prop
  | .hbuf len | .nextn len => len.toNat ≤ 4096
  | .pad len | .echnk len true => len.toNat ≤ 4095
  | .unpad len | .echnk len false | .dchnk len _ => 16 ≤ len.toNat ∧ len.toNat ≤ 4096 ∧ len.toNat % 16 = 0
  | .nop | .srst | .hclr | .hbyte _ | .seedh | .seedr | .next | .ksgen | .ksld _ | .sha _ | .shd _ | .pvld _
  | .eblk _ | .dblk _ | .eblks _ | .dblks _ | .cinit => True

/-- R305: the PHASE the command requires, if any (R44). -/
def phaseOk : Instr → Phase → Prop
  | .cinit, p => p = .seeded
  | .echnk _ _, p | .dchnk _ _, p => p = .chained
  | .nop, _ | .srst, _ | .hclr, _ | .hbyte _, _ | .hbuf _, _ | .seedh, _ | .seedr, _ | .next, _ | .nextn _, _
  | .ksgen, _ | .ksld _, _ | .sha _, _ | .shd _, _ | .pvld _, _ | .eblk _, _ | .dblk _, _ | .eblks _, _
  | .dblks _, _ | .pad _, _ | .unpad _, _ => True

/-- The BUF bytes a command reads: first address and how many (R174-R176, R193-R197, R225, R233, R234, R265,
R310 step 5). -/
def readRange : Instr → Nat × Nat
  | .hbuf len | .echnk len _ | .dchnk len _ => (0, len.toNat)
  | .ksld b | .sha b | .shd b | .pvld b | .eblk b | .dblk b | .eblks b | .dblks b => (16 * b.toNat, 16)
  | .unpad len => (len.toNat - 1, 1)
  | .nop | .srst | .hclr | .hbyte _ | .seedh | .seedr | .next | .nextn _ | .ksgen | .cinit | .pad _ => (0, 0)

/-- The BUF bytes a command stores: first address and how many (R84, R146, R175, R176, R194-R197, R223, R233,
R234). -/
def storeRange : Instr → Nat × Nat
  | .nextn len | .dchnk len _ | .echnk len false => (0, len.toNat)
  | .sha b | .shd b | .eblk b | .dblk b | .eblks b | .dblks b => (16 * b.toNat, 16)
  | .pad len => (len.toNat, 16 - len.toNat % 16)
  | .echnk len true => (0, len.toNat + (16 - len.toNat % 16))
  | .nop | .srst | .hclr | .hbyte _ | .hbuf _ | .seedh | .seedr | .next | .ksgen | .ksld _ | .pvld _ | .cinit
  | .unpad _ => (0, 0)

/-- The draws of a completed command (the table of R148). -/
def drawCount : Instr → Nat
  | .next => 1
  | .nextn len | .dchnk len _ | .echnk len false => len.toNat
  | .ksgen | .cinit | .eblk _ | .dblk _ => 16
  | .echnk len true => len.toNat + (16 - len.toNat % 16)
  | .nop | .srst | .hclr | .hbyte _ | .hbuf _ | .seedh | .seedr | .ksld _ | .sha _ | .shd _ | .pvld _ | .eblks _
  | .dblks _ | .pad _ | .unpad _ => 0

/-! ## What BUF holds -/

/-- BUF holds the block at address `a`, every byte marked. -/
abbrev holdsBlock (m : Memory) (a : Nat) (B : Block) : Prop := ∀ i : Fin 16, m.read (a + i) = some B[i]

/-- BUF holds the bytes from address `a`, every one marked. -/
abbrev holdsBytes (m : Memory) (a : Nat) (bs : List Byte) : Prop :=
  ∀ i : Fin bs.length, m.read (a + i) = some bs[i]

/-- Every byte of the range is marked. -/
abbrev marked (m : Memory) (a n : Nat) : Prop := ∀ i < n, (m.read (a + i)).isSome = true

/-- Outside the range every byte reads as before, its mark included. -/
abbrev sameOutside (m m' : Memory) (a n : Nat) : Prop := ∀ x, x < a ∨ a + n ≤ x → m'.read x = m.read x

/-- The bytes of a sequence of blocks, in order. -/
abbrev bytesOf (Bs : List Block) : List Byte := Bs.flatMap Vector.toList

/-- R222, R233: the padding of a final chunk of `n` bytes. -/
abbrev padOf (n : Nat) : List Byte := List.replicate (16 - n % 16) (BitVec.ofNat 8 (16 - n % 16))

/-- R142, R147, R148: the streams of a sequence of blocks from generator state `c`: block `j` gets the draws
`16j + 1` to `16j + 16`. -/
abbrev streamsFrom (c : DWord) (S : Nat → Block) : Prop :=
  ∀ (j : Nat) (i : Fin 16), (S j)[i] = (lcgStep^[16 * j + i + 1] c).extractLsb' 0 8

/-! ## Turns and host accesses -/

/-- It is the engine's turn: its event is next, or none waits (R86, R361). -/
abbrev engineTurn (s : State) : Prop := s.events = [] ∨ s.events.head? = some .engine

/-- The next step completes the latched word `w` (R86). -/
abbrev completes (s : State) (w : Word) : Prop :=
  s.resetAsserted = false ∧ s.latch = some w ∧ engineTurn s

/-- The state with the event that is next taken from the list. -/
abbrev afterEvent (s : State) : State := { s with events := s.events.tail }

/-- No command is running and reset is not asserted. -/
abbrev quiet (s : State) : Prop := s.busy = false ∧ s.resetAsserted = false

/-- A 4-byte read at `off` answers `v` and changes nothing else, up to the events and the answers the model keeps
(log 4, log 5). -/
abbrev readsAs (s : State) (off : Nat) (v : Word) : Prop :=
  ∀ rest, step { s with events := .read off 4 :: rest } =
    .next { s with events := rest, responses := .data v :: s.responses }

/-- A 4-byte write of `v` at `off` is taken and leads to `t`, up to the events and the answers the
model keeps (log 4, log 5). -/
abbrev writesTo (s : State) (off : Nat) (v : Word) (t : State) : Prop :=
  ∀ rest, step { s with events := .write off 4 v :: rest } =
    .next { t with events := rest, responses := .done :: s.responses }

end Sys2Proof.Certificates

open Sys2Proof Sys2Proof.Machine Sys2Proof.Certificates

/-! ## Encoding and decoding (30_encoding.md) -/

/-- R101, R106, R121: no bit of an encoding is dropped, for every command and every operand value. -/
def Obligations.DecodeOfEncodeIsTheCommand : Prop :=
  ∀ i : Instr, decode (encode i) = .ok i

/-- R104, R106: the words that decode are exactly those with `w & mask = match` for some row, and each is the
encoding of the one command it decodes to. -/
def Obligations.DecodableWordsAreTheLegalWords : Prop :=
  ∀ w : Word, ((∃ i, decode w = .ok i) ↔ fitsRow w) ∧ ∀ i, decode w = .ok i → encode i = w

/-- R121 and 95_test_vectors.md: words written out from the spec's encodings. -/
def Obligations.WordsOfTheSpecDecode : Prop :=
  decode 0x00006111 = .ok (.hbyte 97) ∧ decode 0x00000341 = .ok (.eblk 3) ∧
  decode 0x10000053 = .ok (.echnk 4096 false) ∧ decode 0x20050053 = .ok (.echnk 5 true) ∧
  decode 0x20200054 = .ok (.dchnk 32 true) ∧ decode 0x00100022 = .ok (.nextn 16) ∧
  decode 0x0FFF0051 = .ok (.pad 4095) ∧ decode 0x00000001 = .ok .srst ∧
  decode 0x40000000 = .error .rsvd ∧ decode 0x000000FF = .error .badOp

/-- R109: one outcome for every word, in the order BADOP, RSVD, LEN, command. -/
def Obligations.ClassifyFollowsTheDecoderOrder : Prop :=
  ∀ w : Word,
    (¬ opAssigned w → classify w = .badOp) ∧
    (opAssigned w → ¬ fitsRow w → classify w = .rsvd) ∧
    (fitsRow w → ∃ i, encode i = w ∧
      (¬ legalLen i → classify w = .len i) ∧ (legalLen i → classify w = .command i))

/-- R302: an unassigned OP completes with BADOP and nothing else, whatever the other bits. -/
def Obligations.UnassignedOpcodeCompletesWithBadOp : Prop :=
  ∀ (s : State) (w : Word), completes s w → ¬ opAssigned w →
    step s = .next { afterEvent s with err := 1, errs := true, latch := none, busy := false }

/-- R303: an assigned OP with a nonzero reserved bit or unused field completes with RSVD and nothing else. -/
def Obligations.ReservedBitsCompleteWithRsvd : Prop :=
  ∀ (s : State) (w : Word), completes s w → opAssigned w → ¬ fitsRow w →
    step s = .next { afterEvent s with err := 2, errs := true, latch := none, busy := false }

/-- R105, R304: LEN is raised exactly by an illegal LEN, and then there is no other effect. -/
def Obligations.LenErrorExactlyForIllegalLen : Prop :=
  ∀ (i : Instr) (s : State),
    (¬ legalLen i →
      exec i s = .next { s with err := 3, errs := true, latch := none, busy := false }) ∧
    (legalLen i → ∀ t, exec i s = .next t → t.err ≠ 3)

/-- R305: SEQ is raised by CINIT outside SEEDED and by ECHNK and DCHNK outside CHAINED, with no other effect, and
by nothing else. -/
def Obligations.SeqErrorExactlyForWrongPhase : Prop :=
  ∀ (i : Instr) (s : State), legalLen i →
    (¬ phaseOk i s.phase →
      exec i s = .next { s with err := 4, errs := true, latch := none, busy := false }) ∧
    (phaseOk i s.phase → ∀ t, exec i s = .next t → t.err ≠ 4)

/-! ## The step, completion and STATUS (10_state.md, 20_memory.md, 60_exceptions.md) -/

/-- R86: the step at a latched word that decodes is `exec` of its command; the model adds only that the engine's
event, where it is next in the list, is taken from it. -/
def Obligations.StepRunsTheDecodedCommand : Prop :=
  ∀ (s : State) (w : Word) (i : Instr), completes s w → decode w = .ok i → step s = exec i (afterEvent s)

/-- R86, R300, R39: every completion writes ERR with a code 0 to 5, empties LATCH and clears BUSY; a nonzero code
sets ERRS, and code 0 leaves ERRS as it was (SRST clears it itself). -/
def Obligations.EveryCompletionWritesStatus : Prop :=
  ∀ (i : Instr) (s t : State), exec i s = .next t →
    t.latch = none ∧ t.busy = false ∧ t.err.toNat ≤ 5 ∧
    (t.err ≠ 0 → t.errs = true) ∧
    (t.err = 0 → t.errs = if i = .srst then false else s.errs)

/-- R311: a command that ends in BADOP, RSVD, LEN or SEQ leaves everything but ERR, ERRS, BUSY and LATCH as it
was. -/
def Obligations.ErrorsBeforeWorkArePrecise : Prop :=
  ∀ (s t : State) (w : Word), completes s w → step s = .next t →
    t.err = 1 ∨ t.err = 2 ∨ t.err = 3 ∨ t.err = 4 →
    t = { afterEvent s with err := t.err, errs := true, latch := none, busy := false }

/-- R37: ERRS is set by every completion with a nonzero code, and once set it is cleared only by SRST or by the
hardware reset. That the hardware reset clears it where reset is RELEASED, and not already where it is asserted, is
the model's choice (log 7). -/
def Obligations.ErrsIsStickyUntilReset : Prop :=
  ∀ s t : State, step s = .next t →
    (∀ w, completes s w → t.err ≠ 0 → t.errs = true) ∧
    (s.errs = true → t.errs = false →
      completes s 0x00000001 ∨ (s.resetAsserted = true ∧ s.events.head? = some .releaseReset))

/-- R38: OVR is set by a legal host write to CMD, SEED or BUF while BUSY = 1, which is dropped, and by nothing else;
once set it is cleared only by SRST or by the hardware reset. That the hardware reset clears it where reset is
RELEASED, and not already where it is asserted, is the model's choice (log 7). -/
def Obligations.OvrIsSetByDroppedWritesAndSticky : Prop :=
  (∀ (s : State) (off n : Nat) (v : Word) (rest : List Event),
    s.busy = true → s.resetAsserted = false → legalAccess off n = true →
    off = 0x004 ∨ off = 0x018 ∨ off = 0x01C ∨ 0x1000 ≤ off →
    step { s with events := .write off n v :: rest } =
      .next { s with events := rest, ovr := true, responses := .done :: s.responses }) ∧
  (∀ s t : State, step s = .next t → s.ovr = true → t.ovr = false →
    completes s 0x00000001 ∨ (s.resetAsserted = true ∧ s.events.head? = some .releaseReset)) ∧
  (∀ s t : State, step s = .next t → s.ovr = false → t.ovr = true →
    s.busy = true ∧ s.resetAsserted = false ∧
      ∃ off n v, s.events.head? = some (.write off n v) ∧ legalAccess off n = true ∧
        (off = 0x004 ∨ off = 0x018 ∨ off = 0x01C ∨ 0x1000 ≤ off))

/-- R36: BUSY rises only by an accepted CMD write, and falls only by the completion of a latched word or by
reset. That reset is two events, and clears BUSY where it is asserted, is the model's choice (log 7). -/
def Obligations.BusyRisesAndFallsOnlyAsStated : Prop :=
  ∀ s t : State, step s = .next t →
    (s.busy = false → t.busy = true →
      ∃ w, s.events.head? = some (.write 0x004 4 w) ∧ t.latch = some w ∧ s.resetAsserted = false) ∧
    (s.busy = true → t.busy = false →
      (∃ w, completes s w) ∨ s.events.head? = some .assertReset ∨
        (s.resetAsserted = true ∧ s.events.head? = some .releaseReset))

/-- R44: the session table, for every command, for a word that is no command (BADOP, RSVD), and for the hardware
reset. -/
def Obligations.PhaseFollowsTheSessionTable : Prop :=
  (∀ (i : Instr) (s t : State), exec i s = .next t →
    t.phase =
      match i with
      | .srst => .noSeed
      | .seedr | .seedh => .seeded
      | .cinit => if s.phase = .seeded then .chained else s.phase
      | .echnk _ final | .dchnk _ final =>
        if final = true ∧ s.phase = .chained ∧ t.err ≠ 3 then .done else s.phase
      | _ => s.phase) ∧
  (∀ (s t : State) (w : Word), completes s w → (∀ i, decode w ≠ .ok i) → step s = .next t →
    t.phase = s.phase) ∧
  (∀ (s : State) (rest : List Event), s.resetAsserted = true →
    ∃ t, step { s with events := .releaseReset :: rest } = .next t ∧ t.phase = .noSeed)

/-- R41-R43, R45-R48: each register is written only by the commands the spec lists for it, and no command touches
the world outside or the recorded model fault. -/
def Obligations.RegistersAreWrittenOnlyByTheirCommands : Prop :=
  ∀ (i : Instr) (s t : State), exec i s = .next t → i ≠ .srst →
    ((∀ n, i ≠ .nextn n ∨ n = 0) → i ≠ .next → t.result = s.result) ∧
    ((∀ n f, i ≠ .pad n ∧ i ≠ .unpad n ∧ i ≠ .echnk n f ∧ i ≠ .dchnk n f) → t.outLen = s.outLen) ∧
    ((∀ n c, i ≠ .hclr ∧ i ≠ .hbyte c ∧ i ≠ .hbuf n) → t.hash = s.hash) ∧
    t.seed = s.seed ∧
    ((∀ b n f, i ≠ .cinit ∧ i ≠ .pvld b ∧ i ≠ .eblk b ∧ i ≠ .dblk b ∧ i ≠ .eblks b ∧ i ≠ .dblks b ∧
      i ≠ .echnk n f ∧ i ≠ .dchnk n f) → t.prev = s.prev) ∧
    ((∀ b n f, i ≠ .ksgen ∧ i ≠ .ksld b ∧ i ≠ .eblk b ∧ i ≠ .dblk b ∧ i ≠ .echnk n f ∧ i ≠ .dchnk n f) →
      t.ks = s.ks) ∧
    t.ovr = s.ovr ∧ t.fault = s.fault ∧ t.resetAsserted = s.resetAsserted ∧ t.events = s.events ∧
    t.responses = s.responses ∧ t.draws = s.draws

/-- R84, R50: a completed command changes no byte of BUF outside the bytes its rule stores, and clears no mark. -/
def Obligations.CommandsStoreOnlyTheirBytes : Prop :=
  ∀ (i : Instr) (s t : State), exec i s = .next t →
    sameOutside s.buf t.buf (storeRange i).1 (storeRange i).2 ∧
    ∀ x, (s.buf.read x).isSome = true → (t.buf.read x).isSome = true

/-- R309, R310 step 5: a command that passes its LEN and PHASE checks stops with UnwrittenBufRead exactly where a
byte it reads has no mark. The address named is the lowest one (the model's choice, log 2). -/
def Obligations.UnmarkedReadsStopAtTheLowestAddress : Prop :=
  ∀ (i : Instr) (s : State), legalLen i → phaseOk i s.phase →
    (∀ a, (readRange i).1 ≤ a → a < (readRange i).1 + (readRange i).2 → s.buf.read a = none →
      marked s.buf (readRange i).1 (a - (readRange i).1) →
      exec i s = .fault (.unwrittenBufRead a)) ∧
    (marked s.buf (readRange i).1 (readRange i).2 → ∃ t, exec i s = .next t)

/-! ## Control and seed derivation (45_control.md, 44_seed_derivation.md) -/

/-- R280: NOP only completes. -/
def Obligations.NopOnlyCompletes : Prop :=
  ∀ s : State, exec .nop s = .next { s with err := 0, latch := none, busy := false }

/-- R281, R341: SRST gives every register its after-SRST value and keeps BUF and its marks. -/
def Obligations.SrstResetsRegistersAndKeepsBuf : Prop :=
  ∀ s : State, exec .srst s = .next { s with
    curr := 0, hash := 0, seed := 0, prev := Vector.replicate 16 0, ks := Vector.replicate 16 0, result := 0,
    outLen := 0, busy := false, errs := false, ovr := false, err := 0, phase := .noSeed, latch := none }

/-- R263, R264 with R260: HCLR clears HASH, and HBYTE multiplies it by 65599 and adds the byte, modulo 2^64. The
byte is zero-extended (R261, the default of PW_CHAR_SIGNED). -/
def Obligations.HashCommandsComplete : Prop :=
  ∀ (s : State) (c : BitVec 8),
    exec .hclr s = .next { s with hash := 0, err := 0, latch := none, busy := false } ∧
    exec (.hbyte c) s = .next { s with
      hash := s.hash * 65599 + c.zeroExtend 64, err := 0, latch := none, busy := false }

/-- R265 with R260: HBUF hashes BUF[0..len-1] in ascending order. -/
def Obligations.HbufHashesThePrefixInOrder : Prop :=
  ∀ (s : State) (len : BitVec 13) (bytes : List Byte),
    bytes.length = len.toNat → len.toNat ≤ 4096 → holdsBytes s.buf 0 bytes →
    exec (.hbuf len) s = .next { s with
      hash := bytes.foldl (fun h c => h * 65599 + c.zeroExtend 64) s.hash
      err := 0, latch := none, busy := false }

/-- R262 with R260: the seed of a password is the fold of `h * 65599 + ext_64(c)` from 0, for either extension.
R261: the two extensions give seeds that agree modulo 256, for every password. -/
def Obligations.ExtensionNeverChangesTheLowHashByte : Prop :=
  ∀ p : List Byte,
    seedOf false p = p.foldl (fun h c => h * 65599 + c.zeroExtend 64) 0 ∧
    seedOf true p = p.foldl (fun h c => h * 65599 + c.signExtend 64) 0 ∧
    (seedOf true p).extractLsb' 0 8 = (seedOf false p).extractLsb' 0 8

/-- R144, R266: SEEDR and SEEDH load the generator, from any phase. -/
def Obligations.SeedCommandsLoadTheGenerator : Prop :=
  ∀ s : State,
    exec .seedr s = .next { s with curr := s.seed, phase := .seeded, err := 0, latch := none, busy := false } ∧
    exec .seedh s = .next { s with curr := s.hash, phase := .seeded, err := 0, latch := none, busy := false }

/-! ## The generator (40_generator.md) -/

/-- R140: with the values of R8, one step on a 64-bit state is `(109 * (s mod 256) + 57) mod 256`. -/
def Obligations.LcgStepIsTheByteRecurrence : Prop :=
  ∀ s : DWord, (lcgStep s).toNat = (1103515245 * s.toNat + 12345) % 2 ^ 64 % 256 ∧
    (lcgStep s).toNat = (109 * (s.toNat % 256) + 57) % 256

/-- R143: after the first draw the state sequence has period exactly 256, and only the low byte of the seed
matters. -/
def Obligations.GeneratorHasPeriodExactly256 : Prop :=
  (∀ s : DWord, lcgStep^[256] (lcgStep s) = lcgStep s ∧
    ∀ k, 0 < k → k < 256 → lcgStep^[k] (lcgStep s) ≠ lcgStep s) ∧
  (∀ s s' : DWord, s.toNat % 256 = s'.toNat % 256 → lcgStep s = lcgStep s')

/-- R145 with R141: NEXT puts the low byte of the NEW state in RESULT. -/
def Obligations.NextDrawsOneByte : Prop :=
  ∀ s : State, exec .next s = .next { s with
    curr := lcgStep s.curr, result := (lcgStep s.curr).extractLsb' 0 8, err := 0, latch := none, busy := false }

/-- R146 with R142: NEXTN stores the draws in order, and RESULT takes the last one, if there is one. -/
def Obligations.NextnStoresTheDrawsInOrder : Prop :=
  ∀ (s : State) (len : BitVec 13), len.toNat ≤ 4096 →
    ∃ m, exec (.nextn len) s = .next { s with
        buf := m
        curr := lcgStep^[len.toNat] s.curr
        result := if len.toNat = 0 then s.result else (lcgStep^[len.toNat] s.curr).extractLsb' 0 8
        err := 0, latch := none, busy := false } ∧
      (∀ k < len.toNat, m.read k = some ((lcgStep^[k + 1] s.curr).extractLsb' 0 8)) ∧
      sameOutside s.buf m 0 len.toNat

/-- R147 and R221: KSGEN draws 16 bytes into KS, CINIT in phase SEEDED draws them into PREV and moves to CHAINED. -/
def Obligations.KsgenAndCinitDrawSixteenBytes : Prop :=
  ∀ s : State, ∃ B : Block, (∀ i : Fin 16, B[i] = (lcgStep^[i + 1] s.curr).extractLsb' 0 8) ∧
    exec .ksgen s = .next { s with
      ks := B, curr := lcgStep^[16] s.curr, err := 0, latch := none, busy := false } ∧
    (s.phase = .seeded → exec .cinit s = .next { s with
      prev := B, curr := lcgStep^[16] s.curr, phase := .chained, err := 0, latch := none, busy := false })

/-- R148: the draws per completed command are fixed by the opcode and LEN, never by data; a command that ends in
BADOP, RSVD, LEN or SEQ draws nothing. SEEDR, SEEDH and SRST load CURR and draw nothing. -/
def Obligations.DrawsDependOnlyOnTheCommand : Prop :=
  (∀ (i : Instr) (s t : State), exec i s = .next t → i ≠ .seedr → i ≠ .seedh → i ≠ .srst →
    t.curr = lcgStep^[if t.err = 3 ∨ t.err = 4 then 0 else drawCount i] s.curr) ∧
  (∀ (s t : State) (w : Word), completes s w → (∀ i, decode w ≠ .ok i) → step s = .next t → t.curr = s.curr)

/-! ## The permuter (41_permuter.md) -/

/-- R173: each shuffle undoes the other, for every block and stream. -/
def Obligations.ShufflesAreInverse : Prop :=
  ∀ B S : Block, shuffleDesc (shuffleAsc B S) S = B ∧ shuffleAsc (shuffleDesc B S) S = B

/-- R170 to R172: a swap step exchanges the bytes at the positions that the low and the high nibble of stream byte
`i` name, and leaves every other byte; the ascending shuffle is the sixteen swap steps with `i` = 0 first, the
descending one with `i` = 15 first. R173: the permutation a shuffle applies depends only on the stream. -/
def Obligations.ShuffleIsAPermutationFixedByTheStream : Prop :=
  (∀ (B S : Block) (i : Fin 16), ∃ lo hi : Fin 16,
    lo.val = S[i].toNat % 16 ∧ hi.val = S[i].toNat / 16 ∧
    (swapStep S B i)[lo] = B[hi] ∧ (swapStep S B i)[hi] = B[lo] ∧
    ∀ k, k ≠ lo → k ≠ hi → (swapStep S B i)[k] = B[k]) ∧
  (∀ B S : Block,
    shuffleAsc B S = ([0, 1, 2, 3, 4, 5, 6, 7, 8, 9, 10, 11, 12, 13, 14, 15] : List (Fin 16)).foldl (swapStep S) B ∧
    shuffleDesc B S = ([15, 14, 13, 12, 11, 10, 9, 8, 7, 6, 5, 4, 3, 2, 1, 0] : List (Fin 16)).foldl (swapStep S) B) ∧
  ∀ S : Block, ∃ p q : Fin 16 → Fin 16, Function.Bijective p ∧ Function.Bijective q ∧
    ∀ (B : Block) (i : Fin 16), (shuffleAsc B S)[i] = B[p i] ∧ (shuffleDesc B S)[i] = B[q i]

/-- R174, R193: KSLD and PVLD load a marked block into KS and PREV and change nothing else. -/
def Obligations.BlockLoadsComplete : Prop :=
  ∀ (s : State) (b : BitVec 8) (B : Block), holdsBlock s.buf (16 * b.toNat) B →
    exec (.ksld b) s = .next { s with ks := B, err := 0, latch := none, busy := false } ∧
    exec (.pvld b) s = .next { s with prev := B, err := 0, latch := none, busy := false }

/-- R175, R176: SHA and SHD permute a marked block in place with KS and change nothing else. -/
def Obligations.ShuffleCommandsPermuteTheBlock : Prop :=
  ∀ (s : State) (b : BitVec 8) (B : Block), holdsBlock s.buf (16 * b.toNat) B →
    (∃ m, exec (.sha b) s = .next { s with buf := m, err := 0, latch := none, busy := false } ∧
      holdsBlock m (16 * b.toNat) (shuffleAsc B s.ks) ∧ sameOutside s.buf m (16 * b.toNat) 16) ∧
    (∃ m, exec (.shd b) s = .next { s with buf := m, err := 0, latch := none, busy := false } ∧
      holdsBlock m (16 * b.toNat) (shuffleDesc B s.ks) ∧ sameOutside s.buf m (16 * b.toNat) 16)

/-! ## The block transform (42_block_transform.md) -/

/-- R190: `enc_block` is XOR with `prev`, the ascending shuffle, XOR with the stream, byte for byte, and its next
`prev` is its output. R191: `dec_block` is XOR with the stream, the descending shuffle, XOR with `prev`, and its next
`prev` is its input. R192: decryption with the same `prev` and stream recovers the block and yields the same next
`prev`; with `P = B` the output is `S`, and with `S` and `P` zero it is `B`. -/
def Obligations.DecryptUndoesEncrypt : Prop :=
  (∀ B P S : Block, ∃ X : Block, (∀ i : Fin 16, X[i] = B[i] ^^^ P[i]) ∧
    (∀ i : Fin 16, (encBlock B P S).1[i] = (shuffleAsc X S)[i] ^^^ S[i]) ∧
    (encBlock B P S).2 = (encBlock B P S).1) ∧
  (∀ B P S : Block, ∃ X : Block, (∀ i : Fin 16, X[i] = B[i] ^^^ S[i]) ∧
    (∀ i : Fin 16, (decBlock B P S).1[i] = (shuffleDesc X S)[i] ^^^ P[i]) ∧
    (decBlock B P S).2 = B) ∧
  (∀ B P S : Block, decBlock (encBlock B P S).1 P S = (B, (encBlock B P S).1)) ∧
  (∀ B S : Block, (encBlock B B S).1 = S) ∧
  (∀ B : Block, (encBlock B (Vector.replicate 16 0) (Vector.replicate 16 0)).1 = B)

/-- R194, R195: EBLK and DBLK draw a stream `S` of 16 bytes into KS and transform a marked block in place with
PREV and `S`; PREV becomes the ciphertext block, produced or consumed (R198). -/
def Obligations.FreshStreamBlockCommandsComplete : Prop :=
  ∀ (s : State) (b : BitVec 8) (B : Block), holdsBlock s.buf (16 * b.toNat) B →
    ∃ S : Block, (∀ i : Fin 16, S[i] = (lcgStep^[i + 1] s.curr).extractLsb' 0 8) ∧
    (∃ m, exec (.eblk b) s = .next { s with
        buf := m, prev := (encBlock B s.prev S).1, ks := S, curr := lcgStep^[16] s.curr
        err := 0, latch := none, busy := false } ∧
      holdsBlock m (16 * b.toNat) (encBlock B s.prev S).1 ∧ sameOutside s.buf m (16 * b.toNat) 16) ∧
    (∃ m, exec (.dblk b) s = .next { s with
        buf := m, prev := B, ks := S, curr := lcgStep^[16] s.curr, err := 0, latch := none, busy := false } ∧
      holdsBlock m (16 * b.toNat) (decBlock B s.prev S).1 ∧ sameOutside s.buf m (16 * b.toNat) 16)

/-- R196, R197: EBLKS and DBLKS transform a marked block in place with PREV and the KS held; CURR and KS are
unchanged. -/
def Obligations.StoredStreamBlockCommandsComplete : Prop :=
  ∀ (s : State) (b : BitVec 8) (B : Block), holdsBlock s.buf (16 * b.toNat) B →
    (∃ m, exec (.eblks b) s = .next { s with
        buf := m, prev := (encBlock B s.prev s.ks).1, err := 0, latch := none, busy := false } ∧
      holdsBlock m (16 * b.toNat) (encBlock B s.prev s.ks).1 ∧ sameOutside s.buf m (16 * b.toNat) 16) ∧
    (∃ m, exec (.dblks b) s = .next { s with
        buf := m, prev := B, err := 0, latch := none, busy := false } ∧
      holdsBlock m (16 * b.toNat) (decBlock B s.prev s.ks).1 ∧ sameOutside s.buf m (16 * b.toNat) 16)

/-- R147: KSGEN; EBLKS b equals EBLK b, and KSGEN; DBLKS b equals DBLK b, in every state, stops included. -/
def Obligations.KsgenThenStoredEqualsFresh : Prop :=
  ∀ (s t : State) (b : BitVec 8), exec .ksgen s = .next t →
    exec (.eblks b) t = exec (.eblk b) s ∧ exec (.dblks b) t = exec (.dblk b) s

/-! ## The framer (43_framer.md) -/

/-- R222: the pad count is in 1..16, it leads to the next multiple of 16 strictly above `n`, and never leaves
BUF. -/
def Obligations.PadCountReachesTheNextBlock : Prop :=
  (∀ n, n ≤ 4095 → padCount n = 16 - n % 16 ∧ 1 ≤ padCount n ∧ padCount n ≤ 16 ∧
    (n + padCount n) % 16 = 0 ∧ n + padCount n ≤ 4096) ∧
  padCount 0 = 16 ∧ padCount 1 = 15 ∧ padCount 5 = 11 ∧ padCount 15 = 1 ∧ padCount 16 = 16 ∧
  padCount 4080 = 16 ∧ padCount 4095 = 1

/-- R223: PAD stores the pad count, that many times, after BUF[len-1], and the padded length in OUT_LEN. -/
def Obligations.PadAppendsThePadding : Prop :=
  ∀ (s : State) (len : BitVec 13), len.toNat ≤ 4095 →
    ∃ m n, exec (.pad len) s = .next { s with buf := m, outLen := n, err := 0, latch := none, busy := false } ∧
      n.toNat = len.toNat + (16 - len.toNat % 16) ∧ holdsBytes m len.toNat (padOf len.toNat) ∧
      sameOutside s.buf m len.toNat (16 - len.toNat % 16)

/-- R224, R225, R236: UNPAD reads only the last byte; a value up to `len` is subtracted, a larger one completes
with PAD and OUT_LEN = 0. -/
def Obligations.UnpadSubtractsTheLastByte : Prop :=
  ∀ (s : State) (len : BitVec 13) (v : Byte), legalLen (.unpad len) →
    s.buf.read (len.toNat - 1) = some v →
    (v.toNat ≤ len.toNat → ∃ n, n.toNat = len.toNat - v.toNat ∧
      exec (.unpad len) s = .next { s with outLen := n, err := 0, latch := none, busy := false }) ∧
    (len.toNat < v.toNat → exec (.unpad len) s = .next { s with
      outLen := 0, err := 5, errs := true, latch := none, busy := false })

/-- R233: ECHNK in phase CHAINED encrypts every block of the chunk, padded if final, from BUF[0] in ascending order:
block `j` with the stream `S j` of its own sixteen draws and the chaining value `P j` that the block before it left
(PREV for the first one). After it CURR has made every draw, PREV is the last chaining value and KS the last stream. -/
def Obligations.EchnkEncryptsEveryBlock : Prop :=
  ∀ (s : State) (len : BitVec 13) (final : Bool) (bytes : List Byte) (Bs : List Block),
    legalLen (.echnk len final) → s.phase = .chained →
    bytes.length = len.toNat → holdsBytes s.buf 0 bytes →
    bytesOf Bs = bytes ++ (if final then padOf len.toNat else []) →
    ∃ (m : Memory) (n : BitVec 13) (P S : Nat → Block),
      exec (.echnk len final) s = .next { s with
        buf := m
        curr := lcgStep^[16 * Bs.length] s.curr
        prev := P Bs.length
        ks := S (Bs.length - 1)
        outLen := n
        phase := if final then .done else .chained
        err := 0, latch := none, busy := false } ∧
      n.toNat = 16 * Bs.length ∧ streamsFrom s.curr S ∧ P 0 = s.prev ∧
      (∀ j : Fin Bs.length, holdsBlock m (16 * j) (encBlock Bs[j] (P j) (S j)).1 ∧
        P (j + 1) = (encBlock Bs[j] (P j) (S j)).2) ∧
      sameOutside s.buf m 0 (16 * Bs.length)

/-- R234, R236: DCHNK in phase CHAINED decrypts every block of the chunk from BUF[0] in ascending order, block `j`
with the stream `S j` of its own sixteen draws and the chaining value `P j` that the block before it left (PREV for
the first one). If final, the last decrypted byte is subtracted from the length, or the command completes with PAD
and OUT_LEN = 0, with the work standing. -/
def Obligations.DchnkDecryptsEveryBlock : Prop :=
  ∀ (s : State) (len : BitVec 13) (Bs : List Block),
    legalLen (.dchnk len true) → s.phase = .chained →
    16 * Bs.length = len.toNat → holdsBytes s.buf 0 (bytesOf Bs) →
    ∃ (m : Memory) (v : Byte) (P S : Nat → Block),
      streamsFrom s.curr S ∧ P 0 = s.prev ∧
      (∀ j : Fin Bs.length, holdsBlock m (16 * j) (decBlock Bs[j] (P j) (S j)).1 ∧
        P (j + 1) = (decBlock Bs[j] (P j) (S j)).2) ∧
      sameOutside s.buf m 0 len.toNat ∧ m.read (len.toNat - 1) = some v ∧
      let done : State := { s with
        buf := m
        curr := lcgStep^[16 * Bs.length] s.curr
        prev := P Bs.length
        ks := S (Bs.length - 1)
        latch := none, busy := false }
      exec (.dchnk len false) s = .next { done with outLen := len, err := 0 } ∧
      (v.toNat ≤ len.toNat → ∃ n, n.toNat = len.toNat - v.toNat ∧
        exec (.dchnk len true) s = .next { done with outLen := n, phase := .done, err := 0 }) ∧
      (len.toNat < v.toNat →
        exec (.dchnk len true) s = .next { done with outLen := 0, phase := .done, err := 5, errs := true })

/-- R239, chunk by chunk: what ECHNK made, DCHNK with the same F from the same CURR and PREV turns back into the
chunk, with its length in OUT_LEN and no PAD error. -/
def Obligations.DecryptingAChunkRestoresIt : Prop :=
  ∀ (s t u : State) (len : BitVec 13) (final : Bool),
    s.phase = .chained → exec (.echnk len final) s = .next t → t.err = 0 →
    u.phase = .chained → u.curr = s.curr → u.prev = s.prev →
    (∀ x < t.outLen.toNat, u.buf.read x = t.buf.read x) →
    ∃ v, exec (.dchnk t.outLen final) u = .next v ∧ v.err = 0 ∧ v.outLen = len ∧
      v.prev = t.prev ∧ v.curr = t.curr ∧ ∀ x < len.toNat, v.buf.read x = s.buf.read x

/-- R238: a non-final chunk command and a second one, final or not, give the output, CURR, PREV, KS and PHASE of the
one command over both chunks, and the lengths add up. In decryption the bytes and the chain agree always; the lengths
agree where the second command, and with it the one command, raises no PAD error. -/
def Obligations.SplittingAChunkChangesNothing : Prop :=
  ∀ (s t u v : State) (len len₁ len₂ : BitVec 13) (final : Bool) (m : Memory),
    s.phase = .chained → len.toNat = len₁.toNat + len₂.toNat →
    (∀ x < len₂.toNat, m.read x = s.buf.read (len₁.toNat + x)) →
    (legalLen (.echnk len final) → legalLen (.echnk len₁ false) → legalLen (.echnk len₂ final) →
      exec (.echnk len final) s = .next t →
      exec (.echnk len₁ false) s = .next u →
      exec (.echnk len₂ final) { u with buf := m } = .next v →
      v.curr = t.curr ∧ v.prev = t.prev ∧ v.ks = t.ks ∧ v.phase = t.phase ∧
      t.outLen.toNat = u.outLen.toNat + v.outLen.toNat ∧
      (∀ x < len₁.toNat, u.buf.read x = t.buf.read x) ∧
      (∀ x < v.outLen.toNat, v.buf.read x = t.buf.read (len₁.toNat + x))) ∧
    (legalLen (.dchnk len final) → legalLen (.dchnk len₁ false) → legalLen (.dchnk len₂ final) →
      exec (.dchnk len final) s = .next t →
      exec (.dchnk len₁ false) s = .next u →
      exec (.dchnk len₂ final) { u with buf := m } = .next v →
      v.curr = t.curr ∧ v.prev = t.prev ∧ v.ks = t.ks ∧ v.phase = t.phase ∧
      (v.err = 0 → t.err = 0 ∧ t.outLen.toNat = u.outLen.toNat + v.outLen.toNat) ∧
      (∀ x < len₁.toNat, u.buf.read x = t.buf.read x) ∧
      (∀ x < len₂.toNat, v.buf.read x = t.buf.read (len₁.toNat + x)))

/-! ## The host port (10_state.md, 20_memory.md) -/

/-- R31, R33, R76, R77: what each register offset reads with BUSY = 0. -/
def Obligations.RegisterReadsFollowTheMap : Prop :=
  ∀ s : State, quiet s →
    readsAs s 0x000 0x53420001 ∧ readsAs s 0x004 0 ∧ readsAs s 0x008 (statusWord s) ∧
    readsAs s 0x00C (s.result.zeroExtend 32) ∧ readsAs s 0x010 (s.outLen.zeroExtend 32) ∧
    readsAs s 0x018 (s.seed.extractLsb' 0 32) ∧ readsAs s 0x01C (s.seed.extractLsb' 32 32) ∧
    readsAs s 0x020 (s.curr.extractLsb' 0 32) ∧ readsAs s 0x024 (s.curr.extractLsb' 32 32) ∧
    readsAs s 0x028 (s.hash.extractLsb' 0 32) ∧ readsAs s 0x02C (s.hash.extractLsb' 32 32) ∧
    (∀ k : Fin 4, ∃ p q : Word, readsAs s (0x030 + 4 * k) p ∧ readsAs s (0x040 + 4 * k) q ∧
      ∀ j : Fin 4, p.extractLsb' (8 * j) 8 = s.prev[4 * k.val + j.val] ∧
        q.extractLsb' (8 * j) 8 = s.ks[4 * k.val + j.val]) ∧
    (∀ off, off % 4 = 0 → off = 0x014 ∨ 0x050 ≤ off ∧ off < 0x1000 → readsAs s off 0)

/-- R35: the layout of STATUS; bit 3 and bits 31:10 read 0. -/
def Obligations.StatusWordLayout : Prop :=
  ∀ s : State,
    (statusWord s).getLsbD 0 = s.busy ∧ (statusWord s).getLsbD 1 = s.errs ∧ (statusWord s).getLsbD 2 = s.ovr ∧
    (statusWord s).getLsbD 3 = false ∧ (statusWord s).extractLsb' 4 4 = s.err ∧
    (statusWord s).extractLsb' 8 2 = (match s.phase with | .noSeed => 0 | .seeded => 1 | .chained => 2 | .done => 3) ∧
    (statusWord s).extractLsb' 10 22 = 0

/-- R77, R82: a host read changes no state of SB-CORE, whatever the offset, the size and BUSY; it only gets an
answer, may draw a free value, and may record a bus error. -/
def Obligations.HostReadsChangeNoState : Prop :=
  ∀ (s t : State) (off n : Nat) (rest : List Event), step { s with events := .read off n :: rest } = .next t →
    ∃ r, t = { s with events := rest, responses := r :: s.responses, fault := t.fault, draws := t.draws } ∧
      (legalAccess off n = true → t.fault = s.fault)

/-- R34: a CMD write is accepted with BUSY = 0 and dropped with OVR with BUSY = 1; CMD reads 0. -/
def Obligations.CmdWritesAreAcceptedOrDropped : Prop :=
  ∀ (s : State) (w : Word), s.resetAsserted = false →
    (s.busy = false → writesTo s 0x004 w { s with latch := some w, busy := true }) ∧
    (s.busy = true → writesTo s 0x004 w { s with ovr := true }) ∧
    readsAs s 0x004 0

/-- R43: a write of SEED_LO or SEED_HI with BUSY = 0 changes that half of SEED and nothing else. -/
def Obligations.SeedWritesChangeSeedOnly : Prop :=
  ∀ (s : State) (v : Word), quiet s →
    ∃ lo hi : DWord, writesTo s 0x018 v { s with seed := lo } ∧ writesTo s 0x01C v { s with seed := hi } ∧
      lo.extractLsb' 0 32 = v ∧ lo.extractLsb' 32 32 = s.seed.extractLsb' 32 32 ∧
      hi.extractLsb' 32 32 = v ∧ hi.extractLsb' 0 32 = s.seed.extractLsb' 0 32

/-- R78: writes to read-only and reserved offsets are ignored without error, with BUSY = 0 and with BUSY = 1
(R82). -/
def Obligations.ReadOnlyWritesAreIgnored : Prop :=
  ∀ (s : State) (off : Nat) (v : Word), s.resetAsserted = false → off % 4 = 0 → off < 0x1000 →
    off ≠ 0x004 → off ≠ 0x018 → off ≠ 0x01C → writesTo s off v s

/-- R75, R79: a legal BUF write with BUSY = 0 stores its bytes, bits [7:0] first, sets their marks, and changes
nothing else. -/
def Obligations.BufWritesStoreLittleEndian : Prop :=
  ∀ (s : State) (a n : Nat) (v : Word) (rest : List Event), quiet s →
    n = 1 ∨ n = 2 ∨ n = 4 → a % n = 0 → a + n ≤ 4096 →
    ∃ m, step { s with events := .write (0x1000 + a) n v :: rest } =
        .next { s with events := rest, buf := m, responses := .done :: s.responses } ∧
      (∀ i < n, m.read (a + i) = some (v.extractLsb' (8 * i) 8)) ∧ sameOutside s.buf m a n

/-- R75, R80: a legal BUF read with BUSY = 0 returns the stored bytes, the first in bits [7:0]; where a byte has no
mark it stops with UnwrittenBufRead. Two clauses are the model's choice: the zeros above a 1- or 2-byte answer
(log 5), and that the lowest unmarked address is named (log 2). -/
def Obligations.BufReadsReturnTheStoredBytes : Prop :=
  ∀ (s : State) (a n : Nat) (rest : List Event), quiet s →
    n = 1 ∨ n = 2 ∨ n = 4 → a % n = 0 → a + n ≤ 4096 →
    (marked s.buf a n → ∃ v : Word, step { s with events := .read (0x1000 + a) n :: rest } =
        .next { s with events := rest, responses := .data v :: s.responses } ∧
      (∀ i < n, s.buf.read (a + i) = some (v.extractLsb' (8 * i) 8)) ∧ v.toNat < 2 ^ (8 * n)) ∧
    (∀ i < n, marked s.buf a i → s.buf.read (a + i) = none →
      step { s with events := .read (0x1000 + a) n :: rest } = .fault (.unwrittenBufRead (a + i)))

/-- R82: while BUSY = 1, reads of ID, STATUS, CMD and the reserved offsets are exact, and every other legal read
answers some value and changes nothing; a read records no fault. -/
def Obligations.BusyReadsAreExactOrFree : Prop :=
  ∀ s : State, s.busy = true → s.resetAsserted = false →
    readsAs s 0x000 0x53420001 ∧ readsAs s 0x008 (statusWord s) ∧ readsAs s 0x004 0 ∧
    (∀ off, off % 4 = 0 → off = 0x014 ∨ 0x050 ≤ off ∧ off < 0x1000 → readsAs s off 0) ∧
    (∀ off n rest, legalAccess off n = true →
      0x00C ≤ off ∧ off < 0x050 ∧ off ≠ 0x014 ∨ 0x1000 ≤ off →
      ∃ v, step { s with events := .read off n :: rest } =
        .next { s with events := rest, responses := .data v :: s.responses, draws := s.draws + 1 })

/-- R73, R74, R308: an access that is misaligned or of a wrong width is answered with a bus error; it changes nothing
but the fault recorded; and a recorded fault is never cleared, by any event. Three clauses are the model's choice: an
access outside the window, which R72 leaves to the platform and 93_implementation_defined.md treats as a fault, is
recorded as a bus error too (log 3); where one fault is recorded already, that first one stays (log 3); and the
access is a bus error while reset is asserted too, because legality is judged first (log 7). -/
def Obligations.BusErrorsAreRecordedForever : Prop :=
  (∀ (s : State) (off n : Nat) (v : Word) (rest : List Event),
    ¬ (off < 0x1000 ∧ n = 4 ∧ off % 4 = 0 ∨
       0x1000 ≤ off ∧ off < 0x2000 ∧ (n = 1 ∨ n = 2 ∨ n = 4) ∧ off % n = 0) →
    let t : State := { s with
      events := rest
      responses := .busError :: s.responses
      fault := if s.fault = none then some (.busError off n) else s.fault }
    step { s with events := .read off n :: rest } = .next t ∧
    step { s with events := .write off n v :: rest } = .next t) ∧
  (∀ (s t : State) (f : Fault), step s = .next t → s.fault = some f → t.fault = some f)

/-! ## Reset, progress and invariants (10_state.md R55, 70_reset_and_hazards.md) -/

/-- R55: the state right after a hardware reset. -/
def Obligations.ResetHoldsTheStatedValues : Prop :=
  State.reset.curr = 0 ∧ State.reset.hash = 0 ∧ State.reset.seed = 0 ∧
  (∀ i : Fin 16, State.reset.prev[i] = 0 ∧ State.reset.ks[i] = 0) ∧
  State.reset.result = 0 ∧ State.reset.outLen = 0 ∧ statusWord State.reset = 0 ∧ State.reset.latch = none ∧
  (∀ a, State.reset.buf.read a = none) ∧ readsAs State.reset 0x000 0x53420001

/-- R340: asserting reset discards the latched command; while it is asserted no legal access and no engine turn
changes the state; releasing it gives every register its value after hardware reset and clears every mark. The two
events, the idle engine and what survives the reset are the model's choice (log 7). -/
def Obligations.HardwareResetTakesEffect : Prop :=
  ∀ (s : State) (rest : List Event),
    step { s with events := .assertReset :: rest } =
      .next { s with events := rest, resetAsserted := true, latch := none, busy := false } ∧
    (s.resetAsserted = true →
      step { s with events := .releaseReset :: rest } =
        .next { State.reset with
          events := rest, responses := s.responses, draws := s.draws, fault := s.fault } ∧
      step { s with events := .engine :: rest } = .next { s with events := rest } ∧
      ∀ off n v, legalAccess off n = true →
        step { s with events := .write off n v :: rest } =
          .next { s with events := rest, responses := .done :: s.responses } ∧
        ∃ d, step { s with events := .read off n :: rest } =
          .next { s with events := rest, responses := .data d :: s.responses, draws := s.draws + 1 })

/-- R361: a latched command is completed, or the run stops with a model fault, or reset is asserted, within as
many steps as events wait and one more: a run that goes on for so long has passed a state with LATCH empty. That the
engine runs where no event waits is the model's choice (log 4). -/
def Obligations.LatchedCommandsComplete : Prop :=
  ∀ (s t : State), s.resetAsserted = false →
    core.run (s.events.length + 1) s = .next t →
    ∃ k ≤ s.events.length + 1, ∃ u, core.run k s = .next u ∧ u.latch = none

/-- R39, R42, R45, R49, R51, R56: every step keeps the invariant of the reachable states. -/
def Obligations.EveryStepKeepsTheInvariant : Prop :=
  ∀ s t : State, Safety.Inv s → step s = .next t → Safety.Inv t

/-- R55: the invariant holds after hardware reset. -/
def Obligations.InvariantHoldsAtReset : Prop :=
  Safety.Inv State.reset
end

