-- ==== Sys2Proof/Laws/Memory.lean ====
section
/-!
SUPPORT. BUF and its written marks: what a read after a write gives, when a range can be read, that every
operation keeps the canonical form, and that two canonical memories with the same bytes are equal.
-/

namespace Sys2Proof.Machine

/-! ## Reads after writes -/

@[simp] theorem Memory.read_nil (a : Nat) : Memory.read [] a = none := rfl

theorem Memory.read_write (m : Memory) (a x : Nat) (b : Byte) :
    (m.write a b).read x = if x = a then some b else m.read x := by
  induction m with
  | nil =>
    by_cases h : x = a
    · simp [Memory.write, Memory.read, h]
    · simp [Memory.write, Memory.read, h, Ne.symm h]
  | cons c m ih =>
    obtain ⟨k, v⟩ := c
    unfold Memory.write
    split
    · by_cases h : x = a
      · simp [Memory.read, h]
      · simp [Memory.read, h, Ne.symm h]
    · split
      · subst_vars
        by_cases h : x = k
        · simp [Memory.read, h]
        · simp [Memory.read, h, Ne.symm h]
      · simp only [Memory.read, ih]
        by_cases h : x = a
        · subst h; simp_all [eq_comm]
        · simp [h]

theorem Memory.read_write_same (m : Memory) (a : Nat) (b : Byte) : (m.write a b).read a = some b := by
  simp [Memory.read_write]

theorem Memory.read_write_other (m : Memory) {a x : Nat} (b : Byte) (h : x ≠ a) :
    (m.write a b).read x = m.read x := by
  simp [Memory.read_write, h]

theorem Memory.read_writeBytes_outside (m : Memory) (a x : Nat) (bs : List Byte)
    (h : x < a ∨ a + bs.length ≤ x) : (m.writeBytes a bs).read x = m.read x := by
  induction bs generalizing m a with
  | nil => rfl
  | cons b bs ih =>
    simp only [List.length_cons] at h
    rw [Memory.writeBytes, ih _ _ (by omega), Memory.read_write_other _ _ (by omega)]

theorem Memory.read_writeBytes_inside (m : Memory) (a i : Nat) (bs : List Byte) (h : i < bs.length) :
    (m.writeBytes a bs).read (a + i) = some bs[i] := by
  induction bs generalizing m a i with
  | nil => simp at h
  | cons b bs ih =>
    cases i with
    | zero =>
      rw [Memory.writeBytes, Memory.read_writeBytes_outside _ _ _ _ (by omega)]
      simpa using Memory.read_write_same m a b
    | succ i =>
      have := ih (m.write a b) (a + 1) i (by simpa using h)
      rw [Memory.writeBytes, show a + (i + 1) = a + 1 + i by omega, this]
      rfl

/-- Everything a write of consecutive bytes does to a read. -/
theorem Memory.read_writeBytes (m : Memory) (a x : Nat) (bs : List Byte) :
    (m.writeBytes a bs).read x = if a ≤ x ∧ x < a + bs.length then bs[x - a]? else m.read x := by
  split
  · next h =>
    obtain ⟨i, rfl⟩ := Nat.exists_eq_add_of_le h.1
    have hi : i < bs.length := by omega
    simp [Memory.read_writeBytes_inside m a i bs hi, hi]
  · next h => exact Memory.read_writeBytes_outside m a x bs (by omega)

/-- Everything a write of one block does to a read. -/
theorem Memory.read_writeBlock (m : Memory) (a x : Nat) (B : Block) :
    (m.writeBlock a B).read x = if a ≤ x ∧ x < a + 16 then B[x - a]? else m.read x := by
  simp [Memory.writeBlock, Memory.read_writeBytes]

theorem Memory.read_writeBlocks_outside (m : Memory) (a x : Nat) (Bs : List Block)
    (h : x < a ∨ a + 16 * Bs.length ≤ x) : (m.writeBlocks a Bs).read x = m.read x := by
  induction Bs generalizing m a with
  | nil => rfl
  | cons B Bs ih =>
    simp only [List.length_cons] at h
    rw [Memory.writeBlocks, ih _ _ (by simp; omega), Memory.read_writeBlock]
    simp; omega

theorem Memory.read_writeBlocks_inside (m : Memory) (a j i : Nat) (Bs : List Block) (hj : j < Bs.length)
    (hi : i < 16) : (m.writeBlocks a Bs).read (a + 16 * j + i) = some Bs[j][i] := by
  induction Bs generalizing m a j with
  | nil => simp at hj
  | cons B Bs ih =>
    cases j with
    | zero =>
      rw [Memory.writeBlocks, Memory.read_writeBlocks_outside _ _ _ _ (by simp; omega),
        Memory.read_writeBlock]
      simp [hi]
    | succ j =>
      have := ih (m.writeBlock a B) (a + 16) j (by simpa using hj)
      rw [Memory.writeBlocks, show a + 16 * (j + 1) + i = a + 16 + 16 * j + i by omega, Config.block, this]
      rfl

/-! ## When a range can be read -/

/-- Storing bytes clears no written mark. -/
theorem Memory.isSome_writeBytes {m : Memory} {a x : Nat} {bs : List Byte} (h : (m.read x).isSome) :
    ((m.writeBytes a bs).read x).isSome := by
  rw [Memory.read_writeBytes]
  split
  · next hx =>
    have : x - a < bs.length := by omega
    simp [this]
  · exact h

/-- Storing blocks clears no written mark. -/
theorem Memory.isSome_writeBlocks {m : Memory} {a x : Nat} {Bs : List Block} (h : (m.read x).isSome) :
    ((m.writeBlocks a Bs).read x).isSome := by
  induction Bs generalizing m a with
  | nil => exact h
  | cons B Bs ih => exact ih (Memory.isSome_writeBytes h)

theorem Memory.readVec_eq_ok {m : Memory} {a n : Nat} {v : Vector Byte n} :
    m.readVec a n = .ok v ↔ ∀ i (h : i < n), m.read (a + i) = some v[i] := by
  induction n with
  | zero => simp [Memory.readVec]
  | succ n ih =>
    simp only [Memory.readVec]
    constructor
    · intro h
      split at h
      · cases h
      · next w hw =>
        split at h
        · cases h
        · next b hb =>
          cases h
          intro i hi
          by_cases e : i = n
          · subst e; simp [hb]
          · have := ih.mp hw i (by omega)
            rw [this, Vector.getElem_push_lt]
    · intro h
      have hp : m.readVec a n = .ok v.pop := ih.mpr fun i hi => by simpa using h i (by omega)
      have hl := h n (by omega)
      simp only [hp, hl]
      congr 1
      ext i hi
      by_cases e : i = n
      · subst e; simp
      · rw [Vector.getElem_push_lt (h := by omega)]; simp

/-- A range that cannot be read: the address reported is unmarked, and every lower one of the range is marked. -/
theorem Memory.readVec_error_bound {m : Memory} {a n e : Nat} (h : m.readVec a n = .error e) :
    a ≤ e ∧ e < a + n ∧ m.read e = none ∧ ∀ x, a ≤ x → x < e → (m.read x).isSome := by
  induction n generalizing e with
  | zero => simp [Memory.readVec] at h
  | succ n ih =>
    simp only [Memory.readVec] at h
    split at h
    · next hv =>
      cases h
      obtain ⟨h1, h2, h3, h4⟩ := ih hv
      exact ⟨h1, by omega, h3, h4⟩
    · next v hv =>
      split at h
      · next hn =>
        cases h
        refine ⟨by omega, by omega, hn, fun x h1 h2 => ?_⟩
        obtain ⟨i, rfl⟩ := Nat.exists_eq_add_of_le h1
        simp [Memory.readVec_eq_ok.mp hv i (by omega)]
      · cases h

/-- A range cannot be read exactly where one of its bytes is unmarked; the lowest such address is reported. -/
theorem Memory.readVec_eq_error {m : Memory} {a n e : Nat} :
    m.readVec a n = .error e ↔
      a ≤ e ∧ e < a + n ∧ m.read e = none ∧ ∀ x, a ≤ x → x < e → (m.read x).isSome := by
  refine ⟨Memory.readVec_error_bound, fun ⟨h1, h2, h3, h4⟩ => ?_⟩
  cases hv : m.readVec a n with
  | ok v =>
    obtain ⟨i, rfl⟩ := Nat.exists_eq_add_of_le h1
    simpa [h3] using Memory.readVec_eq_ok.mp hv i (by omega)
  | error e' =>
    obtain ⟨g1, g2, g3, g4⟩ := Memory.readVec_error_bound hv
    rcases Nat.lt_trichotomy e e' with hlt | rfl | hgt
    · simpa [h3] using g4 e h1 hlt
    · rfl
    · simpa [g3] using h4 e' g1 hgt

/-- A range whose bytes are all marked can be read. -/
theorem Memory.readVec_total {m : Memory} {a n : Nat} (h : ∀ i < n, (m.read (a + i)).isSome) :
    ∃ v, m.readVec a n = .ok v := by
  cases hv : m.readVec a n with
  | ok v => exact ⟨v, rfl⟩
  | error e =>
    obtain ⟨h1, h2, h3, -⟩ := Memory.readVec_error_bound hv
    obtain ⟨i, rfl⟩ := Nat.exists_eq_add_of_le h1
    simpa [h3] using h i (by omega)

theorem Memory.readBlock_eq_ok {m : Memory} {a : Nat} {B : Block} :
    m.readBlock a = .ok B ↔ ∀ i (h : i < 16), m.read (a + i) = some B[i] := Memory.readVec_eq_ok

@[simp] theorem Memory.readBlocks_zero (m : Memory) (a : Nat) : m.readBlocks a 0 = .ok [] := rfl

theorem Memory.readBlocks_succ (m : Memory) (a k : Nat) :
    m.readBlocks a (k + 1) =
      match m.readBlock a with
      | .error e => .error e
      | .ok B =>
        match m.readBlocks (a + Config.block) k with
        | .error e => .error e
        | .ok Bs => .ok (B :: Bs) := by
  show (m.readBlock a).bind _ = _
  cases m.readBlock a with
  | error e => rfl
  | ok B =>
    show (m.readBlocks (a + Config.block) k).bind _ = _
    cases m.readBlocks (a + Config.block) k <;> rfl

/-- Blocks can be read exactly where each byte of each is marked, and give those bytes. -/
theorem Memory.readBlocks_eq_ok {m : Memory} {a k : Nat} {Bs : List Block} :
    m.readBlocks a k = .ok Bs ↔
      Bs.length = k ∧ ∀ j (hj : j < Bs.length) i (hi : i < 16), m.read (a + 16 * j + i) = some Bs[j][i] := by
  induction k generalizing a Bs with
  | zero => cases Bs <;> simp
  | succ k ih =>
    simp only [Memory.readBlocks_succ]
    constructor
    · intro h
      split at h
      · cases h
      · next B hB =>
        split at h
        · cases h
        · next Bs' hBs =>
          cases h
          obtain ⟨hl, hr⟩ := ih.mp hBs
          refine ⟨by simp [hl], fun j hj i hi => ?_⟩
          cases j with
          | zero => simpa using Memory.readBlock_eq_ok.mp hB i hi
          | succ j =>
            have := hr j (by simpa using hj) i hi
            rw [Config.block, show a + 16 + 16 * j + i = a + 16 * (j + 1) + i by omega] at this
            exact this
    · rintro ⟨hl, hr⟩
      cases Bs with
      | nil => simp at hl
      | cons B Bs =>
        have hB : m.readBlock a = .ok B := Memory.readBlock_eq_ok.mpr fun i hi => by
          have := hr 0 (by simp) i hi
          rwa [Nat.mul_zero, Nat.add_zero] at this
        have hBs : m.readBlocks (a + Config.block) k = .ok Bs := ih.mpr
          ⟨by simpa using hl, fun j hj i hi => by
            have := hr (j + 1) (by simpa using hj) i hi
            rw [Config.block, show a + 16 + 16 * j + i = a + 16 * (j + 1) + i by omega]
            exact this⟩
        simp only [hB, hBs]

theorem Memory.readBlocks_error_bound {m : Memory} {a k e : Nat} (h : m.readBlocks a k = .error e) :
    a ≤ e ∧ e < a + 16 * k ∧ m.read e = none ∧ ∀ x, a ≤ x → x < e → (m.read x).isSome := by
  induction k generalizing a with
  | zero => simp at h
  | succ k ih =>
    simp only [Memory.readBlocks_succ] at h
    split at h
    · next hB =>
      cases h
      obtain ⟨h1, h2, h3, h4⟩ := Memory.readVec_error_bound hB
      exact ⟨h1, by omega, h3, h4⟩
    · next B hB =>
      split at h
      · next hBs =>
        cases h
        obtain ⟨h1, h2, h3, h4⟩ := ih hBs
        simp only [Config.block] at h1 h2 h4
        refine ⟨by omega, by omega, h3, fun x g1 g2 => ?_⟩
        by_cases hx : x < a + 16
        · obtain ⟨i, rfl⟩ := Nat.exists_eq_add_of_le g1
          simp [Memory.readBlock_eq_ok.mp hB i (by omega)]
        · exact h4 x (by omega) g2
      · cases h

/-- Blocks whose bytes are all marked can be read. -/
theorem Memory.readBlocks_total {m : Memory} {a k : Nat} (h : ∀ i < 16 * k, (m.read (a + i)).isSome) :
    ∃ Bs, m.readBlocks a k = .ok Bs := by
  cases hv : m.readBlocks a k with
  | ok Bs => exact ⟨Bs, rfl⟩
  | error e =>
    obtain ⟨h1, h2, h3, -⟩ := Memory.readBlocks_error_bound hv
    obtain ⟨i, rfl⟩ := Nat.exists_eq_add_of_le h1
    simpa [h3] using h i (by omega)

/-! ## The canonical form -/

theorem Memory.write_keys {m : Memory} {a : Nat} {b : Byte} {c : Host.Cell} (h : c ∈ m.write a b) :
    c.1 = a ∨ c ∈ m := by
  induction m with
  | nil => simp_all [Memory.write]
  | cons d m ih =>
    obtain ⟨k, v⟩ := d
    unfold Memory.write at h
    split at h
    · rcases List.mem_cons.mp h with rfl | h
      · simp
      · exact .inr h
    · split at h
      · rcases List.mem_cons.mp h with rfl | h
        · simp
        · exact .inr (List.mem_cons_of_mem _ h)
      · rcases List.mem_cons.mp h with rfl | h
        · simp
        · exact (ih h).imp_right (List.mem_cons_of_mem _)

/-- Storing one byte keeps the canonical form. -/
theorem Memory.write_wf {m : Memory} {a : Nat} (b : Byte) (hm : m.wf) (ha : a < Config.chunk) :
    (m.write a b).wf := by
  refine ⟨?_, fun c hc => (Memory.write_keys hc).elim (fun h => h ▸ ha) (hm.2 c)⟩
  have hp := hm.1
  clear hm
  induction m with
  | nil => simp [Memory.write]
  | cons d m ih =>
    obtain ⟨k, v⟩ := d
    obtain ⟨hk, hq⟩ := List.pairwise_cons.mp hp
    unfold Memory.write
    split
    · next h =>
      refine List.pairwise_cons.mpr ⟨fun c hc => ?_, hp⟩
      rcases List.mem_cons.mp hc with rfl | hc
      · exact h
      · exact Nat.lt_trans h (hk c hc)
    · split
      · next h => subst h; exact List.pairwise_cons.mpr ⟨hk, hq⟩
      · refine List.pairwise_cons.mpr ⟨fun c hc => ?_, ih hq⟩
        rcases Memory.write_keys hc with h | h
        · show k < c.1
          omega
        · exact hk c h

/-- Storing bytes inside BUF keeps the canonical form. -/
theorem Memory.writeBytes_wf {m : Memory} {a : Nat} {bs : List Byte} (hm : m.wf)
    (ha : a + bs.length ≤ Config.chunk) : (m.writeBytes a bs).wf := by
  induction bs generalizing m a with
  | nil => exact hm
  | cons b bs ih =>
    simp only [List.length_cons] at ha
    exact ih (Memory.write_wf b hm (by omega)) (by omega)

/-- Storing a block inside BUF keeps the canonical form. -/
theorem Memory.writeBlock_wf {m : Memory} {a : Nat} {B : Block} (hm : m.wf) (ha : a + 16 ≤ Config.chunk) :
    (m.writeBlock a B).wf := Memory.writeBytes_wf hm (by simpa using ha)

/-- Storing blocks inside BUF keeps the canonical form. -/
theorem Memory.writeBlocks_wf {m : Memory} {a : Nat} {Bs : List Block} (hm : m.wf)
    (ha : a + 16 * Bs.length ≤ Config.chunk) : (m.writeBlocks a Bs).wf := by
  induction Bs generalizing m a with
  | nil => exact hm
  | cons B Bs ih =>
    simp only [List.length_cons] at ha
    exact ih (Memory.writeBlock_wf hm (by omega)) (by simp only [Config.block]; omega)

/-- The memory of the reset state is in canonical form. -/
theorem State.reset_buf_wf : State.reset.buf.wf := by simp [State.reset, Memory.wf]

theorem Memory.read_of_lt {m : Memory} {a : Nat} (h : ∀ c ∈ m, a < c.1) : m.read a = none := by
  induction m with
  | nil => rfl
  | cons c m ih =>
    have hc : c.1 ≠ a := by
      have := h c (by simp)
      omega
    simp [Memory.read, hc, ih fun d hd => h d (List.mem_cons_of_mem _ hd)]

/-- Two canonical memories that hold the same byte at every address are equal. -/
theorem Memory.ext_of_read {m m' : Memory} (hm : m.wf) (hm' : m'.wf) (h : ∀ a, m.read a = m'.read a) :
    m = m' := by
  have hp := hm.1
  have hp' := hm'.1
  clear hm hm'
  induction m generalizing m' with
  | nil =>
    cases m' with
    | nil => rfl
    | cons c m' => simpa [Memory.read] using h c.1
  | cons c m ih =>
    obtain ⟨k, v⟩ := c
    obtain ⟨hk, hq⟩ := List.pairwise_cons.mp hp
    cases m' with
    | nil => simpa [Memory.read] using h k
    | cons c' m' =>
      obtain ⟨k', v'⟩ := c'
      obtain ⟨hk', hq'⟩ := List.pairwise_cons.mp hp'
      have hkk : k = k' := by
        rcases Nat.lt_trichotomy k k' with hlt | rfl | hgt
        · have := h k
          simp [Memory.read, show k' ≠ k by omega,
            Memory.read_of_lt fun d hd => Nat.lt_trans hlt (hk' d hd)] at this
        · rfl
        · have := h k'
          simp [Memory.read, show k ≠ k' by omega,
            Memory.read_of_lt fun d hd => Nat.lt_trans hgt (hk d hd)] at this
      subst hkk
      have hv : v = v' := by simpa [Memory.read] using h k
      subst hv
      congr 1
      refine ih (fun a => ?_) hq hq'
      by_cases ha : k = a
      · subst ha
        rw [Memory.read_of_lt hk, Memory.read_of_lt hk']
      · simpa [Memory.read, ha] using h a

end Sys2Proof.Machine
end

