-- ==== Sys2Proof/Laws/State.lean ====
section
/-!
SUPPORT. What each named update of the state does to each field, one lemma a field, so that no later proof
unfolds a record update.
-/

namespace Sys2Proof.Machine

/-! ## complete -/

@[simp] theorem complete_curr (code : ErrCode) (s : State) : (complete code s).curr = s.curr := rfl
@[simp] theorem complete_hash (code : ErrCode) (s : State) : (complete code s).hash = s.hash := rfl
@[simp] theorem complete_seed (code : ErrCode) (s : State) : (complete code s).seed = s.seed := rfl
@[simp] theorem complete_prev (code : ErrCode) (s : State) : (complete code s).prev = s.prev := rfl
@[simp] theorem complete_ks (code : ErrCode) (s : State) : (complete code s).ks = s.ks := rfl
@[simp] theorem complete_buf (code : ErrCode) (s : State) : (complete code s).buf = s.buf := rfl
@[simp] theorem complete_result (code : ErrCode) (s : State) : (complete code s).result = s.result := rfl
@[simp] theorem complete_outLen (code : ErrCode) (s : State) : (complete code s).outLen = s.outLen := rfl
@[simp] theorem complete_busy (code : ErrCode) (s : State) : (complete code s).busy = false := rfl
@[simp] theorem complete_errs (code : ErrCode) (s : State) : (complete code s).errs = (s.errs || code != .ok) := rfl
@[simp] theorem complete_ovr (code : ErrCode) (s : State) : (complete code s).ovr = s.ovr := rfl
@[simp] theorem complete_err (code : ErrCode) (s : State) : (complete code s).err = code.code := rfl
@[simp] theorem complete_phase (code : ErrCode) (s : State) : (complete code s).phase = s.phase := rfl
@[simp] theorem complete_latch (code : ErrCode) (s : State) : (complete code s).latch = none := rfl
@[simp] theorem complete_fault (code : ErrCode) (s : State) : (complete code s).fault = s.fault := rfl
@[simp] theorem complete_resetAsserted (code : ErrCode) (s : State) : (complete code s).resetAsserted = s.resetAsserted := rfl
@[simp] theorem complete_events (code : ErrCode) (s : State) : (complete code s).events = s.events := rfl
@[simp] theorem complete_responses (code : ErrCode) (s : State) : (complete code s).responses = s.responses := rfl
@[simp] theorem complete_draws (code : ErrCode) (s : State) : (complete code s).draws = s.draws := rfl

/-! ## withChain -/

@[simp] theorem withChain_curr (c : Chain) (s : State) : (s.withChain c).curr = c.curr := rfl
@[simp] theorem withChain_hash (c : Chain) (s : State) : (s.withChain c).hash = s.hash := rfl
@[simp] theorem withChain_seed (c : Chain) (s : State) : (s.withChain c).seed = s.seed := rfl
@[simp] theorem withChain_prev (c : Chain) (s : State) : (s.withChain c).prev = c.prev := rfl
@[simp] theorem withChain_ks (c : Chain) (s : State) : (s.withChain c).ks = c.ks := rfl
@[simp] theorem withChain_buf (c : Chain) (s : State) : (s.withChain c).buf = s.buf := rfl
@[simp] theorem withChain_result (c : Chain) (s : State) : (s.withChain c).result = s.result := rfl
@[simp] theorem withChain_outLen (c : Chain) (s : State) : (s.withChain c).outLen = s.outLen := rfl
@[simp] theorem withChain_busy (c : Chain) (s : State) : (s.withChain c).busy = s.busy := rfl
@[simp] theorem withChain_errs (c : Chain) (s : State) : (s.withChain c).errs = s.errs := rfl
@[simp] theorem withChain_ovr (c : Chain) (s : State) : (s.withChain c).ovr = s.ovr := rfl
@[simp] theorem withChain_err (c : Chain) (s : State) : (s.withChain c).err = s.err := rfl
@[simp] theorem withChain_phase (c : Chain) (s : State) : (s.withChain c).phase = s.phase := rfl
@[simp] theorem withChain_latch (c : Chain) (s : State) : (s.withChain c).latch = s.latch := rfl
@[simp] theorem withChain_fault (c : Chain) (s : State) : (s.withChain c).fault = s.fault := rfl
@[simp] theorem withChain_resetAsserted (c : Chain) (s : State) : (s.withChain c).resetAsserted = s.resetAsserted := rfl
@[simp] theorem withChain_events (c : Chain) (s : State) : (s.withChain c).events = s.events := rfl
@[simp] theorem withChain_responses (c : Chain) (s : State) : (s.withChain c).responses = s.responses := rfl
@[simp] theorem withChain_draws (c : Chain) (s : State) : (s.withChain c).draws = s.draws := rfl

/-! ## softReset -/

@[simp] theorem softReset_curr (s : State) : (softReset s).curr = 0 := rfl
@[simp] theorem softReset_hash (s : State) : (softReset s).hash = 0 := rfl
@[simp] theorem softReset_seed (s : State) : (softReset s).seed = 0 := rfl
@[simp] theorem softReset_prev (s : State) : (softReset s).prev = zeroBlock := rfl
@[simp] theorem softReset_ks (s : State) : (softReset s).ks = zeroBlock := rfl
@[simp] theorem softReset_buf (s : State) : (softReset s).buf = s.buf := rfl
@[simp] theorem softReset_result (s : State) : (softReset s).result = 0 := rfl
@[simp] theorem softReset_outLen (s : State) : (softReset s).outLen = 0 := rfl
@[simp] theorem softReset_busy (s : State) : (softReset s).busy = s.busy := rfl
@[simp] theorem softReset_errs (s : State) : (softReset s).errs = false := rfl
@[simp] theorem softReset_ovr (s : State) : (softReset s).ovr = false := rfl
@[simp] theorem softReset_err (s : State) : (softReset s).err = s.err := rfl
@[simp] theorem softReset_phase (s : State) : (softReset s).phase = .noSeed := rfl
@[simp] theorem softReset_latch (s : State) : (softReset s).latch = s.latch := rfl
@[simp] theorem softReset_fault (s : State) : (softReset s).fault = s.fault := rfl
@[simp] theorem softReset_resetAsserted (s : State) : (softReset s).resetAsserted = s.resetAsserted := rfl
@[simp] theorem softReset_events (s : State) : (softReset s).events = s.events := rfl
@[simp] theorem softReset_responses (s : State) : (softReset s).responses = s.responses := rfl
@[simp] theorem softReset_draws (s : State) : (softReset s).draws = s.draws := rfl

/-! ## respond -/

@[simp] theorem respond_curr (r : Response) (s : State) : (respond r s).curr = s.curr := rfl
@[simp] theorem respond_hash (r : Response) (s : State) : (respond r s).hash = s.hash := rfl
@[simp] theorem respond_seed (r : Response) (s : State) : (respond r s).seed = s.seed := rfl
@[simp] theorem respond_prev (r : Response) (s : State) : (respond r s).prev = s.prev := rfl
@[simp] theorem respond_ks (r : Response) (s : State) : (respond r s).ks = s.ks := rfl
@[simp] theorem respond_buf (r : Response) (s : State) : (respond r s).buf = s.buf := rfl
@[simp] theorem respond_result (r : Response) (s : State) : (respond r s).result = s.result := rfl
@[simp] theorem respond_outLen (r : Response) (s : State) : (respond r s).outLen = s.outLen := rfl
@[simp] theorem respond_busy (r : Response) (s : State) : (respond r s).busy = s.busy := rfl
@[simp] theorem respond_errs (r : Response) (s : State) : (respond r s).errs = s.errs := rfl
@[simp] theorem respond_ovr (r : Response) (s : State) : (respond r s).ovr = s.ovr := rfl
@[simp] theorem respond_err (r : Response) (s : State) : (respond r s).err = s.err := rfl
@[simp] theorem respond_phase (r : Response) (s : State) : (respond r s).phase = s.phase := rfl
@[simp] theorem respond_latch (r : Response) (s : State) : (respond r s).latch = s.latch := rfl
@[simp] theorem respond_fault (r : Response) (s : State) : (respond r s).fault = s.fault := rfl
@[simp] theorem respond_resetAsserted (r : Response) (s : State) : (respond r s).resetAsserted = s.resetAsserted := rfl
@[simp] theorem respond_events (r : Response) (s : State) : (respond r s).events = s.events := rfl
@[simp] theorem respond_responses (r : Response) (s : State) : (respond r s).responses = r :: s.responses := rfl
@[simp] theorem respond_draws (r : Response) (s : State) : (respond r s).draws = s.draws := rfl

/-! ## busError -/

@[simp] theorem busError_curr (off n : Nat) (s : State) : (busError off n s).curr = s.curr := rfl
@[simp] theorem busError_hash (off n : Nat) (s : State) : (busError off n s).hash = s.hash := rfl
@[simp] theorem busError_seed (off n : Nat) (s : State) : (busError off n s).seed = s.seed := rfl
@[simp] theorem busError_prev (off n : Nat) (s : State) : (busError off n s).prev = s.prev := rfl
@[simp] theorem busError_ks (off n : Nat) (s : State) : (busError off n s).ks = s.ks := rfl
@[simp] theorem busError_buf (off n : Nat) (s : State) : (busError off n s).buf = s.buf := rfl
@[simp] theorem busError_result (off n : Nat) (s : State) : (busError off n s).result = s.result := rfl
@[simp] theorem busError_outLen (off n : Nat) (s : State) : (busError off n s).outLen = s.outLen := rfl
@[simp] theorem busError_busy (off n : Nat) (s : State) : (busError off n s).busy = s.busy := rfl
@[simp] theorem busError_errs (off n : Nat) (s : State) : (busError off n s).errs = s.errs := rfl
@[simp] theorem busError_ovr (off n : Nat) (s : State) : (busError off n s).ovr = s.ovr := rfl
@[simp] theorem busError_err (off n : Nat) (s : State) : (busError off n s).err = s.err := rfl
@[simp] theorem busError_phase (off n : Nat) (s : State) : (busError off n s).phase = s.phase := rfl
@[simp] theorem busError_latch (off n : Nat) (s : State) : (busError off n s).latch = s.latch := rfl
@[simp] theorem busError_fault (off n : Nat) (s : State) : (busError off n s).fault = (s.fault <|> some (.busError off n)) := rfl
@[simp] theorem busError_resetAsserted (off n : Nat) (s : State) : (busError off n s).resetAsserted = s.resetAsserted := rfl
@[simp] theorem busError_events (off n : Nat) (s : State) : (busError off n s).events = s.events := rfl
@[simp] theorem busError_responses (off n : Nat) (s : State) : (busError off n s).responses = .busError :: s.responses := rfl
@[simp] theorem busError_draws (off n : Nat) (s : State) : (busError off n s).draws = s.draws := rfl

/-! ## freeRead -/

@[simp] theorem freeRead_curr (n : Nat) (s : State) : (freeRead n s).curr = s.curr := rfl
@[simp] theorem freeRead_hash (n : Nat) (s : State) : (freeRead n s).hash = s.hash := rfl
@[simp] theorem freeRead_seed (n : Nat) (s : State) : (freeRead n s).seed = s.seed := rfl
@[simp] theorem freeRead_prev (n : Nat) (s : State) : (freeRead n s).prev = s.prev := rfl
@[simp] theorem freeRead_ks (n : Nat) (s : State) : (freeRead n s).ks = s.ks := rfl
@[simp] theorem freeRead_buf (n : Nat) (s : State) : (freeRead n s).buf = s.buf := rfl
@[simp] theorem freeRead_result (n : Nat) (s : State) : (freeRead n s).result = s.result := rfl
@[simp] theorem freeRead_outLen (n : Nat) (s : State) : (freeRead n s).outLen = s.outLen := rfl
@[simp] theorem freeRead_busy (n : Nat) (s : State) : (freeRead n s).busy = s.busy := rfl
@[simp] theorem freeRead_errs (n : Nat) (s : State) : (freeRead n s).errs = s.errs := rfl
@[simp] theorem freeRead_ovr (n : Nat) (s : State) : (freeRead n s).ovr = s.ovr := rfl
@[simp] theorem freeRead_err (n : Nat) (s : State) : (freeRead n s).err = s.err := rfl
@[simp] theorem freeRead_phase (n : Nat) (s : State) : (freeRead n s).phase = s.phase := rfl
@[simp] theorem freeRead_latch (n : Nat) (s : State) : (freeRead n s).latch = s.latch := rfl
@[simp] theorem freeRead_fault (n : Nat) (s : State) : (freeRead n s).fault = s.fault := rfl
@[simp] theorem freeRead_resetAsserted (n : Nat) (s : State) : (freeRead n s).resetAsserted = s.resetAsserted := rfl
@[simp] theorem freeRead_events (n : Nat) (s : State) : (freeRead n s).events = s.events := rfl
@[simp] theorem freeRead_responses (n : Nat) (s : State) : (freeRead n s).responses = .data (leWord (leBytes n (Config.freeWord s.draws))) :: s.responses := rfl
@[simp] theorem freeRead_draws (n : Nat) (s : State) : (freeRead n s).draws = s.draws + 1 := rfl

/-! ## acceptCommand -/

@[simp] theorem acceptCommand_curr (w : Word) (s : State) : (acceptCommand w s).curr = s.curr := rfl
@[simp] theorem acceptCommand_hash (w : Word) (s : State) : (acceptCommand w s).hash = s.hash := rfl
@[simp] theorem acceptCommand_seed (w : Word) (s : State) : (acceptCommand w s).seed = s.seed := rfl
@[simp] theorem acceptCommand_prev (w : Word) (s : State) : (acceptCommand w s).prev = s.prev := rfl
@[simp] theorem acceptCommand_ks (w : Word) (s : State) : (acceptCommand w s).ks = s.ks := rfl
@[simp] theorem acceptCommand_buf (w : Word) (s : State) : (acceptCommand w s).buf = s.buf := rfl
@[simp] theorem acceptCommand_result (w : Word) (s : State) : (acceptCommand w s).result = s.result := rfl
@[simp] theorem acceptCommand_outLen (w : Word) (s : State) : (acceptCommand w s).outLen = s.outLen := rfl
@[simp] theorem acceptCommand_busy (w : Word) (s : State) : (acceptCommand w s).busy = true := rfl
@[simp] theorem acceptCommand_errs (w : Word) (s : State) : (acceptCommand w s).errs = s.errs := rfl
@[simp] theorem acceptCommand_ovr (w : Word) (s : State) : (acceptCommand w s).ovr = s.ovr := rfl
@[simp] theorem acceptCommand_err (w : Word) (s : State) : (acceptCommand w s).err = s.err := rfl
@[simp] theorem acceptCommand_phase (w : Word) (s : State) : (acceptCommand w s).phase = s.phase := rfl
@[simp] theorem acceptCommand_latch (w : Word) (s : State) : (acceptCommand w s).latch = some w := rfl
@[simp] theorem acceptCommand_fault (w : Word) (s : State) : (acceptCommand w s).fault = s.fault := rfl
@[simp] theorem acceptCommand_resetAsserted (w : Word) (s : State) : (acceptCommand w s).resetAsserted = s.resetAsserted := rfl
@[simp] theorem acceptCommand_events (w : Word) (s : State) : (acceptCommand w s).events = s.events := rfl
@[simp] theorem acceptCommand_responses (w : Word) (s : State) : (acceptCommand w s).responses = s.responses := rfl
@[simp] theorem acceptCommand_draws (w : Word) (s : State) : (acceptCommand w s).draws = s.draws := rfl

/-! ## assertReset -/

@[simp] theorem assertReset_curr (s : State) : (assertReset s).curr = s.curr := rfl
@[simp] theorem assertReset_hash (s : State) : (assertReset s).hash = s.hash := rfl
@[simp] theorem assertReset_seed (s : State) : (assertReset s).seed = s.seed := rfl
@[simp] theorem assertReset_prev (s : State) : (assertReset s).prev = s.prev := rfl
@[simp] theorem assertReset_ks (s : State) : (assertReset s).ks = s.ks := rfl
@[simp] theorem assertReset_buf (s : State) : (assertReset s).buf = s.buf := rfl
@[simp] theorem assertReset_result (s : State) : (assertReset s).result = s.result := rfl
@[simp] theorem assertReset_outLen (s : State) : (assertReset s).outLen = s.outLen := rfl
@[simp] theorem assertReset_busy (s : State) : (assertReset s).busy = false := rfl
@[simp] theorem assertReset_errs (s : State) : (assertReset s).errs = s.errs := rfl
@[simp] theorem assertReset_ovr (s : State) : (assertReset s).ovr = s.ovr := rfl
@[simp] theorem assertReset_err (s : State) : (assertReset s).err = s.err := rfl
@[simp] theorem assertReset_phase (s : State) : (assertReset s).phase = s.phase := rfl
@[simp] theorem assertReset_latch (s : State) : (assertReset s).latch = none := rfl
@[simp] theorem assertReset_fault (s : State) : (assertReset s).fault = s.fault := rfl
@[simp] theorem assertReset_resetAsserted (s : State) : (assertReset s).resetAsserted = true := rfl
@[simp] theorem assertReset_events (s : State) : (assertReset s).events = s.events := rfl
@[simp] theorem assertReset_responses (s : State) : (assertReset s).responses = s.responses := rfl
@[simp] theorem assertReset_draws (s : State) : (assertReset s).draws = s.draws := rfl

/-! ## hardwareReset -/

@[simp] theorem hardwareReset_curr (s : State) : (hardwareReset s).curr = 0 := rfl
@[simp] theorem hardwareReset_hash (s : State) : (hardwareReset s).hash = Config.hashInit := rfl
@[simp] theorem hardwareReset_seed (s : State) : (hardwareReset s).seed = 0 := rfl
@[simp] theorem hardwareReset_prev (s : State) : (hardwareReset s).prev = zeroBlock := rfl
@[simp] theorem hardwareReset_ks (s : State) : (hardwareReset s).ks = zeroBlock := rfl
@[simp] theorem hardwareReset_buf (s : State) : (hardwareReset s).buf = [] := rfl
@[simp] theorem hardwareReset_result (s : State) : (hardwareReset s).result = 0 := rfl
@[simp] theorem hardwareReset_outLen (s : State) : (hardwareReset s).outLen = 0 := rfl
@[simp] theorem hardwareReset_busy (s : State) : (hardwareReset s).busy = false := rfl
@[simp] theorem hardwareReset_errs (s : State) : (hardwareReset s).errs = false := rfl
@[simp] theorem hardwareReset_ovr (s : State) : (hardwareReset s).ovr = false := rfl
@[simp] theorem hardwareReset_err (s : State) : (hardwareReset s).err = 0 := rfl
@[simp] theorem hardwareReset_phase (s : State) : (hardwareReset s).phase = .noSeed := rfl
@[simp] theorem hardwareReset_latch (s : State) : (hardwareReset s).latch = none := rfl
@[simp] theorem hardwareReset_fault (s : State) : (hardwareReset s).fault = s.fault := rfl
@[simp] theorem hardwareReset_resetAsserted (s : State) : (hardwareReset s).resetAsserted = s.resetAsserted := rfl
@[simp] theorem hardwareReset_events (s : State) : (hardwareReset s).events = s.events := rfl
@[simp] theorem hardwareReset_responses (s : State) : (hardwareReset s).responses = s.responses := rfl
@[simp] theorem hardwareReset_draws (s : State) : (hardwareReset s).draws = s.draws := rfl

/-! ## withCommand -/

@[simp] theorem withCommand_curr (w : Word) (s : State) : (withCommand w s).curr = s.curr := rfl
@[simp] theorem withCommand_hash (w : Word) (s : State) : (withCommand w s).hash = s.hash := rfl
@[simp] theorem withCommand_seed (w : Word) (s : State) : (withCommand w s).seed = s.seed := rfl
@[simp] theorem withCommand_prev (w : Word) (s : State) : (withCommand w s).prev = s.prev := rfl
@[simp] theorem withCommand_ks (w : Word) (s : State) : (withCommand w s).ks = s.ks := rfl
@[simp] theorem withCommand_buf (w : Word) (s : State) : (withCommand w s).buf = s.buf := rfl
@[simp] theorem withCommand_result (w : Word) (s : State) : (withCommand w s).result = s.result := rfl
@[simp] theorem withCommand_outLen (w : Word) (s : State) : (withCommand w s).outLen = s.outLen := rfl
@[simp] theorem withCommand_busy (w : Word) (s : State) : (withCommand w s).busy = true := rfl
@[simp] theorem withCommand_errs (w : Word) (s : State) : (withCommand w s).errs = s.errs := rfl
@[simp] theorem withCommand_ovr (w : Word) (s : State) : (withCommand w s).ovr = s.ovr := rfl
@[simp] theorem withCommand_err (w : Word) (s : State) : (withCommand w s).err = s.err := rfl
@[simp] theorem withCommand_phase (w : Word) (s : State) : (withCommand w s).phase = s.phase := rfl
@[simp] theorem withCommand_latch (w : Word) (s : State) : (withCommand w s).latch = some w := rfl
@[simp] theorem withCommand_fault (w : Word) (s : State) : (withCommand w s).fault = s.fault := rfl
@[simp] theorem withCommand_resetAsserted (w : Word) (s : State) : (withCommand w s).resetAsserted = false := rfl
@[simp] theorem withCommand_events (w : Word) (s : State) : (withCommand w s).events = .engine :: s.events := rfl
@[simp] theorem withCommand_responses (w : Word) (s : State) : (withCommand w s).responses = s.responses := rfl
@[simp] theorem withCommand_draws (w : Word) (s : State) : (withCommand w s).draws = s.draws := rfl

end Sys2Proof.Machine
end

