-- ==== Sys2Proof/Laws/Ops.lean ====
section
/-!
SUPPORT. What each shared operation of the commands can answer: completion, raising an error, the checks of
spec/60_exceptions.md R310, the forms several commands share, and the step.
-/

namespace Sys2Proof.Machine

@[simp] theorem finish_eq_next {s t : State} : finish s = .next t ↔ t = complete .ok s := by
  simp [finish, eq_comm]

@[simp] theorem raiseError_eq_next {c : ErrCode} {s t : State} :
    raiseError c s = .next t ↔ t = complete c s := by
  simp [raiseError, eq_comm]

@[simp] theorem finish_ne_fault {s : State} {r : Fault} : finish s ≠ .fault r := by simp [finish]

@[simp] theorem raiseError_ne_fault {c : ErrCode} {s : State} {r : Fault} : raiseError c s ≠ .fault r := by
  simp [raiseError]

/-- A command with a LEN check: it goes on with a legal LEN, and completes with LEN and nothing else otherwise. -/
theorem requireLen_eq_next {l : Bool} {s t : State} {k : Result} :
    requireLen l s k = .next t ↔ l = true ∧ k = .next t ∨ l = false ∧ t = complete .len s := by
  cases l <;> simp [requireLen]

@[simp] theorem requireLen_true (s : State) (k : Result) : requireLen true s k = k := rfl

@[simp] theorem requireLen_false (s : State) (k : Result) : requireLen false s k = raiseError .len s := rfl

/-- A command with a PHASE check: it goes on in its phase, and completes with SEQ and nothing else otherwise. -/
theorem requirePhase_eq_next {p : Phase} {s t : State} {k : Result} :
    requirePhase p s k = .next t ↔ s.phase = p ∧ k = .next t ∨ s.phase ≠ p ∧ t = complete .seq s := by
  by_cases h : s.phase = p <;> simp [requirePhase, h]

/-- A command that reads BUF answers a next state only with the bytes read. -/
theorem reading_eq_next {α : Type} {r : Except Nat α} {k : α → Result} {t : State} :
    reading r k = .next t ↔ ∃ x, r = .ok x ∧ k x = .next t := by
  cases r <;> simp [reading]

/-- A command that reads BUF stops with the model fault at the address that could not be read. -/
theorem reading_eq_fault {α : Type} {r : Except Nat α} {k : α → Result} {f : Fault} :
    reading r k = .fault f ↔
      (∃ a, r = .error a ∧ f = .unwrittenBufRead a) ∨ ∃ x, r = .ok x ∧ k x = .fault f := by
  cases r <;> simp [reading, eq_comm]

@[simp] theorem reading_ok {α : Type} (x : α) (k : α → Result) : reading (.ok x) k = k x := rfl

@[simp] theorem reading_error {α : Type} (a : Nat) (k : α → Result) :
    reading (.error a) k = .fault (.unwrittenBufRead a) := rfl

/-- EBLK and DBLK: everything a completed one does. -/
theorem stepBlock_eq_next {f : Chain → Block → Block × Chain} {b : BitVec 8} {s t : State} :
    stepBlock f b s = .next t ↔ ∃ B, s.buf.readBlock (blockAddr b) = .ok B ∧
      t = complete .ok { s.withChain (f s.chain B).2 with
        buf := s.buf.writeBlock (blockAddr b) (f s.chain B).1 } := by
  simp [stepBlock, reading_eq_next]

/-- EBLKS and DBLKS: everything a completed one does. -/
theorem storedBlock_eq_next {f : Block → Block → Block → Block × Block} {b : BitVec 8} {s t : State} :
    storedBlock f b s = .next t ↔ ∃ B, s.buf.readBlock (blockAddr b) = .ok B ∧
      t = complete .ok { s with prev := (f B s.prev s.ks).2,
                                buf := s.buf.writeBlock (blockAddr b) (f B s.prev s.ks).1 } := by
  simp [storedBlock, reading_eq_next]

/-- The unpad step: OUT_LEN is reduced by the last byte, or the command completes with PAD and OUT_LEN = 0. -/
theorem unpadTail_eq_next {n : Nat} {s t : State} :
    unpadTail n s = .next t ↔ ∃ v : Vector Byte 1, s.buf.readVec (n - 1) 1 = .ok v ∧
      (n < v[0].toNat ∧ t = complete .pad { s with outLen := 0 } ∨
       v[0].toNat ≤ n ∧ t = complete .ok { s with outLen := BitVec.ofNat 13 (n - v[0].toNat) }) := by
  rw [unpadTail, reading_eq_next]
  refine exists_congr fun v => and_congr_right fun _ => ?_
  by_cases h : n < v[0].toNat
  · simp [h]
  · simp [h, Nat.le_of_not_lt h]

/-- Every block index names sixteen bytes inside BUF (R84). -/
theorem blockAddr_le (b : BitVec 8) : blockAddr b + 16 ≤ Config.chunk := by
  have := b.isLt
  simp only [blockAddr, Config.block, Config.chunk]
  omega

/-- R222: padding leads to the next multiple of 16, and stays inside BUF. -/
theorem padCount_bounds (n : Nat) : 1 ≤ padCount n ∧ padCount n ≤ 16 := by
  simp only [padCount, Config.block]
  omega

@[simp] theorem padBytes_length (n : Nat) : (padBytes n).length = padCount n := by simp [padBytes]

/-- The step with no event waiting is the engine's. -/
theorem step_of_nil {s : State} (h : s.events = []) : step s = engineStep s := by
  simp [step, nextEvent, h, takeEvent]

/-- The step with an event waiting is that event. -/
theorem step_of_cons {s : State} {e : Event} {rest : List Event} (h : s.events = e :: rest) :
    step s = takeEvent e { s with events := rest } := by
  simp [step, nextEvent, h]

/-- Every step is one of these: an engine completion of a latched word, nothing, a host access, or an edge of
the reset input. -/
theorem takeEvent_eq_next {e : Event} {s t : State} (h : takeEvent e s = .next t) :
    (∃ w, e = .engine ∧ s.resetAsserted = false ∧ s.latch = some w ∧ completeWord w s = .next t) ∨
    (e = .engine ∧ (s.resetAsserted = true ∨ s.latch = none) ∧ t = s) ∨
    (∃ off n, e = .read off n ∧ hostRead off n s = .next t) ∨
    (∃ off n v, e = .write off n v ∧ hostWrite off n v s = .next t) ∨
    (e = .assertReset ∧ t = assertReset s) ∨
    (e = .releaseReset ∧ t = releaseReset s) := by
  cases e with
  | read off n => exact .inr (.inr (.inl ⟨off, n, rfl, h⟩))
  | write off n v => exact .inr (.inr (.inr (.inl ⟨off, n, v, rfl, h⟩)))
  | assertReset => exact .inr (.inr (.inr (.inr (.inl ⟨rfl, by simpa [takeEvent, eq_comm] using h⟩))))
  | releaseReset => exact .inr (.inr (.inr (.inr (.inr ⟨rfl, by simpa [takeEvent, eq_comm] using h⟩))))
  | engine =>
    simp only [takeEvent, engineStep] at h
    split at h
    · next hr => exact .inr (.inl ⟨rfl, .inl hr, by simpa [eq_comm] using h⟩)
    · next hr =>
      split at h
      · next hl => exact .inr (.inl ⟨rfl, .inr hl, by simpa [eq_comm] using h⟩)
      · next w hl => exact .inl ⟨w, rfl, by simpa using hr, hl, h⟩

/-- Everything a host read can do when it answers a next state. -/
theorem hostRead_eq_next {off n : Nat} {s t : State} (h : hostRead off n s = .next t) :
    legalAccess off n = false ∧ t = busError off n s ∨
    legalAccess off n = true ∧ (s.resetAsserted = true ∨ s.busy = true ∧ readableBusy off = false) ∧
      t = freeRead n s ∨
    legalAccess off n = true ∧ s.resetAsserted = false ∧ ∃ v, t = respond (.data v) s := by
  simp only [hostRead] at h
  split at h
  · next hl => exact .inl ⟨by simpa using hl, by simpa [eq_comm] using h⟩
  · next hl =>
    replace hl : legalAccess off n = true := by simpa using hl
    split at h
    · next hr => exact .inr (.inl ⟨hl, .inl hr, by simpa [eq_comm] using h⟩)
    · next hr =>
      split at h
      · next hb => exact .inr (.inl ⟨hl, .inr (by simpa using hb), by simpa [eq_comm] using h⟩)
      · split at h
        · exact .inr (.inr ⟨hl, by simpa using hr, _, by simpa [eq_comm] using h⟩)
        · obtain ⟨v, -, hv⟩ := reading_eq_next.mp h
          exact .inr (.inr ⟨hl, by simpa using hr, _, by simpa [eq_comm] using hv⟩)

/-- A host write always answers a next state, and does one of these. -/
theorem hostWrite_cases (off n : Nat) (v : Word) (s : State) : ∃ t, hostWrite off n v s = .next t ∧
    (legalAccess off n = false ∧ t = busError off n s ∨
     legalAccess off n = true ∧ s.resetAsserted = true ∧ t = respond .done s ∨
     legalAccess off n = true ∧ s.resetAsserted = false ∧ s.busy = true ∧
       t = respond .done (if droppedBusy off then { s with ovr := true } else s) ∨
     legalAccess off n = true ∧ s.resetAsserted = false ∧ s.busy = false ∧ off < Config.bufBase ∧
       t = respond .done (regWrite off v s) ∨
     legalAccess off n = true ∧ s.resetAsserted = false ∧ s.busy = false ∧ Config.bufBase ≤ off ∧
       t = respond .done { s with buf := s.buf.writeBytes (off - Config.bufBase) (leBytes n v) }) := by
  unfold hostWrite
  cases hl : legalAccess off n
  · exact ⟨_, rfl, .inl ⟨rfl, rfl⟩⟩
  · cases hr : s.resetAsserted
    · cases hb : s.busy
      · by_cases hlt : off < Config.bufBase
        · exact ⟨_, by simp only [hlt]; rfl, .inr (.inr (.inr (.inl ⟨rfl, rfl, rfl, hlt, rfl⟩)))⟩
        · exact ⟨_, by simp only [hlt]; rfl,
            .inr (.inr (.inr (.inr ⟨rfl, rfl, rfl, Nat.le_of_not_lt hlt, rfl⟩)))⟩
      · exact ⟨_, rfl, .inr (.inr (.inl ⟨rfl, rfl, rfl, rfl⟩))⟩
    · exact ⟨_, rfl, .inr (.inl ⟨rfl, rfl, rfl⟩)⟩

/-- What a register write can change: LATCH and BUSY by CMD, SEED by its two halves, else nothing. -/
theorem regWrite_cases (off : Nat) (v : Word) (s : State) :
    regWrite off v s = acceptCommand v s ∧ off = 0x004 ∨
    (∃ x, regWrite off v s = { s with seed := x }) ∧ (off = 0x018 ∨ off = 0x01C) ∨
    regWrite off v s = s ∧ off ≠ 0x004 ∧ off ≠ 0x018 ∧ off ≠ 0x01C := by
  unfold regWrite
  split
  · exact .inl ⟨rfl, rfl⟩
  · exact .inr (.inl ⟨⟨_, rfl⟩, .inl rfl⟩)
  · exact .inr (.inl ⟨⟨_, rfl⟩, .inr rfl⟩)
  · next h1 h2 h3 => exact .inr (.inr ⟨rfl, h1, h2, h3⟩)

end Sys2Proof.Machine
end

