-- ==== Sys2Proof/Laws/Commands.lean ====
section
/-!
SUPPORT. What each command with a check, a BUF access or more than one outcome does when it answers a next state,
said once; and what no command but SRST changes.
-/

namespace Sys2Proof.Machine

/-! ## One lemma a command -/

theorem execHbuf_eq_next {len : BitVec 13} {s t : State} :
    execHbuf len s = .next t ↔
      lenPrefix len = false ∧ t = complete .len s ∨
      lenPrefix len = true ∧ ∃ v, s.buf.readVec 0 len.toNat = .ok v ∧
        t = complete .ok { s with hash := v.toList.foldl (hashStep Config.pwCharSigned) s.hash } := by
  rw [execHbuf, requireLen_eq_next, or_comm]
  simp [reading_eq_next]

theorem execNextn_eq_next {len : BitVec 13} {s t : State} :
    execNextn len s = .next t ↔
      lenPrefix len = false ∧ t = complete .len s ∨
      lenPrefix len = true ∧ t = complete .ok { s with
        buf := s.buf.writeBytes 0 (drawN len.toNat s.curr).1.toList
        curr := (drawN len.toNat s.curr).2
        result := (drawN len.toNat s.curr).1.toList.getLast?.getD s.result } := by
  rw [execNextn, requireLen_eq_next, or_comm, finish_eq_next]

theorem execKsld_eq_next {b : BitVec 8} {s t : State} :
    execKsld b s = .next t ↔ ∃ B, s.buf.readBlock (blockAddr b) = .ok B ∧ t = complete .ok { s with ks := B } := by
  simp [execKsld, reading_eq_next]

theorem execPvld_eq_next {b : BitVec 8} {s t : State} :
    execPvld b s = .next t ↔ ∃ B, s.buf.readBlock (blockAddr b) = .ok B ∧ t = complete .ok { s with prev := B } := by
  simp [execPvld, reading_eq_next]

theorem execSha_eq_next {b : BitVec 8} {s t : State} :
    execSha b s = .next t ↔ ∃ B, s.buf.readBlock (blockAddr b) = .ok B ∧
      t = complete .ok { s with buf := s.buf.writeBlock (blockAddr b) (shuffleAsc B s.ks) } := by
  simp [execSha, reading_eq_next]

theorem execShd_eq_next {b : BitVec 8} {s t : State} :
    execShd b s = .next t ↔ ∃ B, s.buf.readBlock (blockAddr b) = .ok B ∧
      t = complete .ok { s with buf := s.buf.writeBlock (blockAddr b) (shuffleDesc B s.ks) } := by
  simp [execShd, reading_eq_next]

theorem execCinit_eq_next {s t : State} :
    execCinit s = .next t ↔
      s.phase ≠ .seeded ∧ t = complete .seq s ∨
      s.phase = .seeded ∧ t = complete .ok { s with
        prev := (drawBlock s.curr).1, curr := (drawBlock s.curr).2, phase := .chained } := by
  rw [execCinit, requirePhase_eq_next, or_comm, finish_eq_next]

theorem execPad_eq_next {len : BitVec 13} {s t : State} :
    execPad len s = .next t ↔
      lenPartial len = false ∧ t = complete .len s ∨
      lenPartial len = true ∧ t = complete .ok { s with
        buf := s.buf.writeBytes len.toNat (padBytes len.toNat)
        outLen := BitVec.ofNat 13 (len.toNat + padCount len.toNat) } := by
  rw [execPad, requireLen_eq_next, or_comm, finish_eq_next]

/-- The unpad step writes OUT_LEN and completes with OK or PAD. -/
theorem unpadTail_shape {n : Nat} {s t : State} (h : unpadTail n s = .next t) :
    ∃ (c : ErrCode) (o : BitVec 13), (c = .ok ∨ c = .pad) ∧ t = complete c { s with outLen := o } ∧ o.toNat ≤ n := by
  obtain ⟨v, -, ⟨-, rfl⟩ | ⟨-, rfl⟩⟩ := unpadTail_eq_next.mp h
  · exact ⟨_, _, .inr rfl, rfl, by simp⟩
  · exact ⟨_, _, .inl rfl, rfl, by
      simp only [BitVec.toNat_ofNat]
      exact (Nat.mod_le _ _).trans (Nat.sub_le _ _)⟩

theorem execUnpad_eq_next {len : BitVec 13} {s t : State} :
    execUnpad len s = .next t ↔
      lenBlocks len = false ∧ t = complete .len s ∨ lenBlocks len = true ∧ unpadTail len.toNat s = .next t := by
  rw [execUnpad, requireLen_eq_next, or_comm]

theorem execEchnk_eq_next {len : BitVec 13} {final : Bool} {s t : State} :
    execEchnk len final s = .next t ↔
      lenEchnk len final = false ∧ t = complete .len s ∨
      lenEchnk len final = true ∧
        (s.phase ≠ .chained ∧ t = complete .seq s ∨
         s.phase = .chained ∧ ∃ Bs,
          (paddedBuf len final s.buf).readBlocks 0 (paddedLen len final / Config.block) = .ok Bs ∧
          t = complete .ok { s.withChain (runBlocks encStep s.chain Bs).2 with
            buf := (paddedBuf len final s.buf).writeBlocks 0 (runBlocks encStep s.chain Bs).1
            outLen := BitVec.ofNat 13 (paddedLen len final)
            phase := if final then .done else .chained }) := by
  rw [execEchnk, requireLen_eq_next, or_comm, requirePhase_eq_next, or_comm (a := s.phase = .chained ∧ _),
    reading_eq_next]
  simp only [finish_eq_next]

/-- A completed DCHNK: LEN or SEQ and nothing else, or every block decrypted with OUT_LEN and the code as the
unpad step says. -/
theorem execDchnk_shape {len : BitVec 13} {final : Bool} {s t : State} (h : execDchnk len final s = .next t) :
    lenBlocks len = false ∧ t = complete .len s ∨
    lenBlocks len = true ∧
      (s.phase ≠ .chained ∧ t = complete .seq s ∨
       s.phase = .chained ∧ ∃ (Bs : List Block) (c : ErrCode) (o : BitVec 13),
        s.buf.readBlocks 0 (len.toNat / Config.block) = .ok Bs ∧ (c = .ok ∨ c = .pad) ∧ o.toNat ≤ len.toNat ∧
        t = complete c { s.withChain (runBlocks decStep s.chain Bs).2 with
          buf := s.buf.writeBlocks 0 (runBlocks decStep s.chain Bs).1
          outLen := o
          phase := if final then .done else .chained }) := by
  rw [execDchnk, requireLen_eq_next, requirePhase_eq_next, reading_eq_next] at h
  rcases h with ⟨hl, ⟨hp, Bs, hB, h⟩ | ⟨hp, rfl⟩⟩ | ⟨hl, rfl⟩
  · refine .inr ⟨hl, .inr ⟨hp, Bs, ?_⟩⟩
    cases final
    · simp only [Bool.false_eq_true, if_false, finish_eq_next] at h
      subst h
      exact ⟨_, _, hB, .inl rfl, le_rfl, by simp [hp]⟩
    · simp only [if_true] at h
      obtain ⟨c, o, hc, rfl, ho⟩ := unpadTail_shape h
      exact ⟨c, o, hB, hc, ho, rfl⟩
  · exact .inr ⟨hl, .inl ⟨hp, rfl⟩⟩
  · exact .inl ⟨hl, rfl⟩

/-! ## The padded chunk of ECHNK -/

/-- A legal chunk is a whole number of blocks after padding. -/
theorem paddedLen_blocks {len : BitVec 13} {final : Bool} (h : lenEchnk len final = true) :
    Config.block * (paddedLen len final / Config.block) = paddedLen len final := by
  cases final <;> simp [lenEchnk, lenBlocks, paddedLen, padCount] at * <;> omega

/-- A legal chunk stays inside BUF after padding. -/
theorem paddedLen_le {len : BitVec 13} {final : Bool} (h : lenEchnk len final = true) :
    paddedLen len final ≤ Config.chunk := by
  cases final <;> simp [lenEchnk, lenBlocks, lenPartial, paddedLen, padCount] at * <;> omega

/-- Padding stores nothing past the padded length. -/
theorem read_paddedBuf_above {len : BitVec 13} {final : Bool} (m : Memory) {x : Nat}
    (h : paddedLen len final ≤ x) : (paddedBuf len final m).read x = m.read x := by
  cases final
  · rfl
  · simp only [paddedBuf, paddedLen, if_true] at *
    rw [Memory.read_writeBytes_outside]
    simp only [padBytes_length]
    omega

/-- Padding stores nothing in the chunk itself. -/
theorem read_paddedBuf_below {len : BitVec 13} (final : Bool) (m : Memory) {x : Nat} (h : x < len.toNat) :
    (paddedBuf len final m).read x = m.read x := by
  cases final
  · rfl
  · simp only [paddedBuf, if_true]
    rw [Memory.read_writeBytes_outside]
    omega

end Sys2Proof.Machine
end

