-- ==== Sys2Proof/Laws/Decode.lean ====
section
/-!
SUPPORT. The fields of a packed word (spec/30_encoding.md R101, R121).
-/

namespace Sys2Proof

@[simp] theorem opField_packWord (f : Bool) (len : BitVec 13) (arg op : BitVec 8) :
    opField (packWord f len arg op) = op := by
  apply BitVec.eq_of_getLsbD_eq
  intro i hi
  interval_cases i <;> simp [opField, packWord]

@[simp] theorem argField_packWord (f : Bool) (len : BitVec 13) (arg op : BitVec 8) :
    argField (packWord f len arg op) = arg := by
  apply BitVec.eq_of_getLsbD_eq
  intro i hi
  interval_cases i <;> simp [argField, packWord]

@[simp] theorem lenField_packWord (f : Bool) (len : BitVec 13) (arg op : BitVec 8) :
    lenField (packWord f len arg op) = len := by
  apply BitVec.eq_of_getLsbD_eq
  intro i hi
  interval_cases i <;> simp [lenField, packWord]

@[simp] theorem finalField_packWord (f : Bool) (len : BitVec 13) (arg op : BitVec 8) :
    finalField (packWord f len arg op) = f := by
  simp [finalField, packWord]

/-- What a decoded word is: the command its OP names, with the row's fixed bits (R104, R109). -/
theorem decode_eq_ok {w : Word} {i : Instr} :
    decode w = .ok i ↔ commandOf w = some i ∧ w &&& fixedMask i = matchWord i := by
  unfold decode
  cases h : commandOf w with
  | none => simp
  | some j =>
    by_cases hj : w &&& fixedMask j = matchWord j
    · simp only [hj, if_true, Except.ok.injEq, Option.some.injEq]
      exact ⟨fun e => ⟨e, e ▸ hj⟩, fun e => e.1⟩
    · simp only [hj, if_false, Option.some.injEq]
      exact ⟨fun e => (by cases e), fun ⟨e, he⟩ => absurd (e ▸ he) hj⟩

/-- The OP field of a word that names a command is that command's opcode (R106). -/
theorem opField_of_commandOf {w : Word} {i : Instr} (h : commandOf w = some i) : opField w = opcode i := by
  unfold commandOf at h
  split at h <;> cases h
  all_goals (apply BitVec.eq_of_toNat_eq; assumption)

end Sys2Proof
end

