-- ==== Sys2Proof/Laws/Generator.lean ====
section
/-!
SUPPORT. The draws in closed form: byte `i` of `next_n(n)` is the byte of the state after `i + 1` steps, and the
state after them is the state after `n` steps; the chain through a sequence of blocks.
-/

namespace Sys2Proof.Machine

theorem drawN_succ (n : Nat) (s : DWord) :
    drawN (n + 1) s = ((drawN n s).1.push (drawnByte (lcgStep (drawN n s).2)), lcgStep (drawN n s).2) := rfl

theorem drawN_snd (n : Nat) (s : DWord) : (drawN n s).2 = lcgStep^[n] s := by
  induction n with
  | zero => rfl
  | succ n ih => rw [drawN_succ, Function.iterate_succ_apply', ih]

theorem drawN_getElem (n : Nat) (s : DWord) (i : Nat) (h : i < n) :
    (drawN n s).1[i] = drawnByte (lcgStep^[i + 1] s) := by
  induction n with
  | zero => omega
  | succ n ih =>
    rw [drawN_succ]
    by_cases e : i = n
    · subst e
      simp only [Vector.getElem_push_eq, drawN_snd, Function.iterate_succ_apply']
    · rw [Vector.getElem_push_lt (h := by omega), ih (by omega)]

theorem drawBlock_snd (s : DWord) : (drawBlock s).2 = lcgStep^[16] s := drawN_snd 16 s

theorem drawBlock_getElem (s : DWord) (i : Nat) (h : i < 16) :
    (drawBlock s).1[i] = drawnByte (lcgStep^[i + 1] s) := drawN_getElem 16 s i h

/-- Every value the generator takes after a draw is below the modulus (R45). -/
theorem lcgStep_lt (s : DWord) : lcgStep s < Config.lcgM := BitVec.umod_lt _ (by decide)

theorem lcgStep_iterate_lt {n : Nat} (h : 0 < n) (s : DWord) : lcgStep^[n] s < Config.lcgM := by
  obtain ⟨k, rfl⟩ := Nat.exists_eq_succ_of_ne_zero h.ne'
  rw [Function.iterate_succ_apply']
  exact lcgStep_lt _

/-! ## A sequence of blocks -/

@[simp] theorem runBlocks_nil (f : Chain → Block → Block × Chain) (c : Chain) :
    runBlocks f c [] = ([], c) := rfl

theorem runBlocks_cons (f : Chain → Block → Block × Chain) (c : Chain) (B : Block) (Bs : List Block) :
    runBlocks f c (B :: Bs) =
      ((f c B).1 :: (runBlocks f (f c B).2 Bs).1, (runBlocks f (f c B).2 Bs).2) := rfl

@[simp] theorem runBlocks_length (f : Chain → Block → Block × Chain) (c : Chain) (Bs : List Block) :
    (runBlocks f c Bs).1.length = Bs.length := by
  induction Bs generalizing c with
  | nil => rfl
  | cons B Bs ih => simp [runBlocks_cons, ih]

/-- What a sequence of blocks does, block by block: block `j` is made from the chain the blocks before it left. -/
theorem runBlocks_getElem (f : Chain → Block → Block × Chain) (c : Chain) (Bs : List Block) (j : Nat)
    (hj : j < Bs.length) :
    (runBlocks f c Bs).1[j]'(by simpa using hj) = (f (runBlocks f c (Bs.take j)).2 Bs[j]).1 := by
  induction Bs generalizing c j with
  | nil => simp at hj
  | cons B Bs ih =>
    cases j with
    | zero => rfl
    | succ j => simpa [runBlocks_cons] using ih _ j (by simpa using hj)

/-- The chain after `j + 1` blocks is what block `j` leaves of the chain after `j` blocks. -/
theorem runBlocks_take_succ (f : Chain → Block → Block × Chain) (c : Chain) (Bs : List Block) (j : Nat)
    (hj : j < Bs.length) :
    (runBlocks f c (Bs.take (j + 1))).2 = (f (runBlocks f c (Bs.take j)).2 Bs[j]).2 := by
  induction Bs generalizing c j with
  | nil => simp at hj
  | cons B Bs ih =>
    cases j with
    | zero => simp [runBlocks_cons]
    | succ j => simpa [runBlocks_cons] using ih _ j (by simpa using hj)

theorem encStep_curr (c : Chain) (B : Block) : (encStep c B).2.curr = lcgStep^[16] c.curr :=
  drawBlock_snd c.curr

theorem decStep_curr (c : Chain) (B : Block) : (decStep c B).2.curr = lcgStep^[16] c.curr :=
  drawBlock_snd c.curr

/-- The generator advances by the number of blocks alone (R148). -/
theorem runBlocks_curr {f : Chain → Block → Block × Chain}
    (hf : ∀ c B, (f c B).2.curr = lcgStep^[16] c.curr) (c : Chain) (Bs : List Block) :
    (runBlocks f c Bs).2.curr = lcgStep^[16 * Bs.length] c.curr := by
  induction Bs generalizing c with
  | nil => rfl
  | cons B Bs ih =>
    rw [runBlocks_cons, ih, hf, ← Function.iterate_add_apply, List.length_cons]
    congr 1

end Sys2Proof.Machine
end

