-- ==== Sys2Proof/Laws/PerInstr.lean ====
section
/-!
SUPPORT. Statements about every command as syntax, one lemma per constructor. Family FixedBits: the word of a
command has exactly the fixed bits of its row of the opcode table, `w & mask = match` (spec/30_encoding.md R104).
-/

namespace Sys2Proof.Laws.FixedBits

/-- R104: the encoded word is one of the command's legal words. -/
def Statement (i : Instr) : Prop := encode i &&& fixedMask i = matchWord i

/-- ARG used: every other bit is fixed. -/
theorem arg_word (a op : BitVec 8) : packWord false 0 a op &&& 0xFFFF00FF#32 = op.setWidth 32 := by
  apply BitVec.eq_of_getLsbD_eq
  intro i hi
  interval_cases i <;> simp [packWord]

/-- LEN used: every other bit is fixed. -/
theorem len_word (len : BitVec 13) (op : BitVec 8) :
    packWord false len 0 op &&& 0xE000FFFF#32 = op.setWidth 32 := by
  apply BitVec.eq_of_getLsbD_eq
  intro i hi
  interval_cases i <;> simp [packWord]

/-- LEN and F used: every other bit is fixed. -/
theorem len_final_word (f : Bool) (len : BitVec 13) (op : BitVec 8) :
    packWord f len 0 op &&& 0xC000FFFF#32 = op.setWidth 32 := by
  apply BitVec.eq_of_getLsbD_eq
  intro i hi
  interval_cases i <;> simp [packWord]

theorem nop : Statement .nop := by rfl
theorem srst : Statement .srst := by rfl
theorem hclr : Statement .hclr := by rfl
theorem hbyte (c : BitVec 8) : Statement (.hbyte c) := arg_word c _
theorem hbuf (len : BitVec 13) : Statement (.hbuf len) := len_word len _
theorem seedh : Statement .seedh := by rfl
theorem seedr : Statement .seedr := by rfl
theorem next : Statement .next := by rfl
theorem nextn (len : BitVec 13) : Statement (.nextn len) := len_word len _
theorem ksgen : Statement .ksgen := by rfl
theorem ksld (b : BitVec 8) : Statement (.ksld b) := arg_word b _
theorem sha (b : BitVec 8) : Statement (.sha b) := arg_word b _
theorem shd (b : BitVec 8) : Statement (.shd b) := arg_word b _
theorem pvld (b : BitVec 8) : Statement (.pvld b) := arg_word b _
theorem eblk (b : BitVec 8) : Statement (.eblk b) := arg_word b _
theorem dblk (b : BitVec 8) : Statement (.dblk b) := arg_word b _
theorem eblks (b : BitVec 8) : Statement (.eblks b) := arg_word b _
theorem dblks (b : BitVec 8) : Statement (.dblks b) := arg_word b _
theorem cinit : Statement .cinit := by rfl
theorem pad (len : BitVec 13) : Statement (.pad len) := len_word len _
theorem unpad (len : BitVec 13) : Statement (.unpad len) := len_word len _
theorem echnk (len : BitVec 13) (final : Bool) : Statement (.echnk len final) := len_final_word final len _
theorem dchnk (len : BitVec 13) (final : Bool) : Statement (.dchnk len final) := len_final_word final len _

end Sys2Proof.Laws.FixedBits
end

