-- ==== Sys2Proof/Laws/Run.lean ====
section
/-!
SUPPORT. Several steps: a run that begins with a step goes on from the state that step answers.
-/

namespace Sys2Proof.Machine

/-- A run whose first step answers a next state goes on from it. -/
theorem run_succ_of_next {n : Nat} {s t : State} (h : step s = .next t) :
    core.run (n + 1) s = core.run n t := by
  have h' : core.step s = .next t := h
  exact (Host.Core.run.eq_2 core s n).trans (by rw [h'])

/-- A run of at least one step that answers a next state begins with a step that does. -/
theorem exists_step_of_run {n : Nat} {s t : State} (h : core.run (n + 1) s = .next t) :
    ∃ s', step s = .next s' ∧ core.run n s' = .next t := by
  have h' := (Host.Core.run.eq_2 core s n).symm.trans h
  cases hs : core.step s with
  | next s' => rw [hs] at h'; exact ⟨s', hs, h'⟩
  | fault r => rw [hs] at h'; cases h'
  | refused r => rw [hs] at h'; cases h'

end Sys2Proof.Machine
end

