-- ==== Sys2Proof/Machine/HostProgram.lean ====
section
/-!
DEFINITION. The host operations and pseudo-instructions of spec/30_encoding.md R122 and R123, and the host
protocols of R124 and spec/43_framer.md R240, as lists of events. A WAIT loop reads STATUS until BUSY = 0; how
often it sees BUSY = 1 depends on when the engine completes and is open for each WAIT (R360), so `polls` says how
many reads come before. DESIGN CHOICE, log 18: a program of several commands takes one `polls` for all its WAITs;
lists with a count of its own for each WAIT are put together from `doCommand`. DESIGN CHOICE, log 19: the width of the
accesses that move a chunk, which the spec leaves open.
-/

namespace Sys2Proof.Machine

/-- R122: `WR32 off, v`. -/
def wr32 (off : Nat) (v : Word) : Event := .write off 4 v

/-- R122: `WR8 off, v`. -/
def wr8 (off : Nat) (v : Byte) : Event := .write off 1 (v.setWidth 32)

/-- R122: `RD32 off`. -/
def rd32 (off : Nat) : Event := .read off 4

/-- R122: `RD8 off`. -/
def rd8 (off : Nat) : Event := .read off 1

/-- R122: `BYTES off, b0 b1 ... bk`. -/
def bytesAt : Nat → List Byte → List Event
  | _, [] => []
  | off, b :: bs => wr8 off b :: bytesAt (off + 1) bs

/-- `n` byte reads from offset `off`, in ascending order. -/
def readBack (off n : Nat) : List Event := (List.range n).map fun i => rd8 (off + i)

/-- R123: `ISSUE cmd`. -/
def issue (i : Instr) : Event := wr32 0x004 (encode i)

/-- R123: `WAIT`, with `polls` reads of STATUS before the engine's completion and one after it. -/
def waitDone (polls : Nat) : List Event := List.replicate polls (rd32 0x008) ++ [.engine, rd32 0x008]

/-- R123: `DO cmd`. How often its WAIT sees BUSY = 1 is open (R360), and `polls` is any number. -/
def doCommand (polls : Nat) (i : Instr) : List Event := issue i :: waitDone polls

/-- R123: `SEED64 v`: one command, so one WAIT. -/
def seed64 (polls : Nat) (v : DWord) : List Event :=
  [wr32 0x018 (v.extractLsb' 0 32), wr32 0x01C (v.extractLsb' 32 32)] ++ doCommand polls .seedr

/-- R123: `PASSWORD "p"`, one HBYTE per byte, first byte first. DESIGN CHOICE, log 18: HCLR, every HBYTE and SEEDH
wait with the same `polls`; the spec leaves the count of each WAIT open. -/
def password (polls : Nat) (p : List Byte) : List Event :=
  doCommand polls .hclr ++ p.flatMap (fun c => doCommand polls (.hbyte c)) ++ doCommand polls .seedh

/-- R123: `SESSION "p"`. DESIGN CHOICE, log 18: every command waits with the same `polls`. -/
def session (polls : Nat) (p : List Byte) : List Event := password polls p ++ doCommand polls .cinit

/-- R123: `CHECK` on the STATUS word read: does it report an error? -/
def checkFails (status : Word) : Bool := status.extractLsb' 4 4 != 0 || status.getLsbD 2

/-- R240 (a): one chunk of the encrypting protocol: write it, ECHNK, wait, read OUT_LEN and the output.
DESIGN CHOICE, log 19: the chunk moves byte by byte, with WR8 and RD8; R124 and R240 leave the width of these accesses
open, and P4 of 95_test_vectors.md uses WR32 and RD32. OUT_LEN is read after every chunk, and no CHECK follows. -/
def encryptChunk (polls : Nat) (final : Bool) (piece : List Byte) : List Event :=
  bytesAt Config.bufBase piece ++ doCommand polls (.echnk (BitVec.ofNat 13 piece.length) final)
    ++ [rd32 0x010]
    ++ readBack Config.bufBase (if final then piece.length + padCount piece.length else piece.length)

/-- R124, R240 (a): `encrypt(P, B)` for an input cut into full 4096-byte pieces and a remainder. DESIGN CHOICE, log 18:
every command of the program waits with the same `polls`, though R360 leaves the count open for each. -/
def encryptProgram (polls : Nat) (p : List Byte) (full : List (List Byte)) (rest : List Byte) : List Event :=
  session polls p ++ full.flatMap (encryptChunk polls false) ++ encryptChunk polls true rest

/-- R240 (b): one chunk of the decrypting protocol. DESIGN CHOICE, log 19: the chunk moves byte by byte, with WR8 and
RD8; the whole piece is read back, and the host takes the first OUT_LEN of the bytes read; no CHECK follows. -/
def decryptChunk (polls : Nat) (final : Bool) (piece : List Byte) : List Event :=
  bytesAt Config.bufBase piece ++ doCommand polls (.dchnk (BitVec.ofNat 13 piece.length) final)
    ++ [rd32 0x010] ++ readBack Config.bufBase piece.length

/-- R124, R232, R240 (b): `decrypt(P, C)`: F = 1 on the piece after which no input remains.
DESIGN CHOICE, log 18: every command of the program waits with the same `polls`. -/
def decryptProgram (polls : Nat) (p : List Byte) (pieces : List (List Byte)) (last : List Byte) : List Event :=
  session polls p ++ pieces.flatMap (decryptChunk polls false) ++ decryptChunk polls true last

end Sys2Proof.Machine
end

