-- ==== Sys2Proof/Tests/Slice0.lean ====
section
/-!
SUPPORT. The model's own tests: ill-formed commands refused, words written out from spec/30_encoding.md decoded,
one or two vectors of spec/95_test_vectors.md a command, and for every statement with hypotheses a state and
operands that meet them. Expected values are the spec's, never the model's.
-/

namespace Sys2Proof.Tests

open Sys2Proof.Machine Sys2Proof.Certificates

/-! ## Helpers -/

/-- The next state, if there is one. -/
def next? : Result → Option State
  | .next t => some t
  | _ => none

/-- The fault, if there is one. -/
def stop? : Result → Option Fault
  | .fault f => some f
  | _ => none

/-- BUF with bytes written from address `a` and nothing else. -/
def bufAt (a : Nat) (bs : List Byte) : Memory := Memory.writeBytes [] a bs

/-- A block from its bytes, lowest index first. -/
def blockOf (bs : List Byte) : Block := Vector.ofFn fun i => bs.getD i 0

/-- V-GEN-1: the first sixteen draws from CURR = 97. -/
def k97 : List Byte := [0x86, 0x47, 0x74, 0x9D, 0x12, 0xE3, 0xE0, 0x99, 0x5E, 0x3F, 0x0C, 0x55, 0x6A, 0x5B, 0xF8, 0xD1]

/-- V-GEN-2: draws 17 to 32 from CURR = 97. -/
def s1 : List Byte := [0x36, 0x37, 0xA4, 0x0D, 0xC2, 0xD3, 0x10, 0x09, 0x0E, 0x2F, 0x3C, 0xC5, 0x1A, 0x4B, 0x28, 0x41]

/-- V-PERM: 00 01 .. 0F. -/
def ramp : List Byte := [0, 1, 2, 3, 4, 5, 6, 7, 8, 9, 10, 11, 12, 13, 14, 15]

/-- V-BLK: "ABCDEFGHIJKLMNOP". -/
def letters : List Byte := [0x41, 0x42, 0x43, 0x44, 0x45, 0x46, 0x47, 0x48, 0x49, 0x4A, 0x4B, 0x4C, 0x4D, 0x4E, 0x4F, 0x50]

/-- V-BLK-1: `letters` encrypted as the first block of session "a". -/
def cipher : List Byte := [0x81, 0x2E, 0xB3, 0x3A, 0x95, 0x14, 0xC9, 0xAE, 0x8F, 0x2A, 0x29, 0x82, 0xBF, 0x9A, 0x5D, 0x66]

/-- V-FRAME-2: "hello" encrypted as the final chunk of session "a". -/
def hello : List Byte := [0xC5, 0x69, 0xF1, 0x15, 0xBF, 0x3D, 0xE1, 0xE2, 0xD4, 0x0D, 0x6C, 0xC2, 0xF2, 0xD9, 0x1C, 0x20]

/-- The state of V-FRAME after SESSION "a", with `buf` in BUF. -/
def sessionA (buf : Memory) : State :=
  { State.reset with hash := 97, curr := 209, prev := blockOf k97, phase := .chained, buf := buf }

/-- Reset, with a block in BUF and KS loaded. -/
def withKs (ks : List Byte) (buf : Memory) : State := { State.reset with ks := blockOf ks, buf := buf }

/-- A latched word, the engine to complete it. -/
def latched (w : Word) : State := { State.reset with latch := some w, busy := true }

/-! ## Ill-formed commands, one for each LEN check (R105) -/

theorem test_wellFormed_refuses_long_prefix :
    (Instr.hbuf 4097).wellFormed = false ∧ (Instr.nextn 4097).wellFormed = false := by decide

theorem test_wellFormed_refuses_full_pad :
    (Instr.pad 4096).wellFormed = false ∧ (Instr.echnk 4096 true).wellFormed = false := by decide

theorem test_wellFormed_refuses_partial_blocks :
    (Instr.unpad 0).wellFormed = false ∧ (Instr.unpad 24).wellFormed = false ∧
    (Instr.unpad 4112).wellFormed = false ∧ (Instr.echnk 8 false).wellFormed = false ∧
    (Instr.dchnk 0 true).wellFormed = false ∧ (Instr.dchnk 24 false).wellFormed = false := by decide

theorem test_wellFormed_admits_the_bounds :
    (Instr.hbuf 4096).wellFormed = true ∧ (Instr.nextn 0).wellFormed = true ∧
    (Instr.pad 4095).wellFormed = true ∧ (Instr.unpad 4096).wellFormed = true ∧
    (Instr.echnk 0 true).wellFormed = true ∧ (Instr.echnk 16 false).wellFormed = true ∧
    (Instr.dchnk 4096 true).wellFormed = true := by decide

/-! ## Words written out from R101, R106 and R121: RSV F LEN ARG OP -/

theorem test_decode_control :
    decode 0b00_0_0000000000000_00000000_00000000 = .ok .nop ∧
    decode 0b00_0_0000000000000_00000000_00000001 = .ok .srst := by decide

theorem test_decode_seed_derivation :
    decode 0b00_0_0000000000000_00000000_00010000 = .ok .hclr ∧
    decode 0b00_0_0000000000000_01100001_00010001 = .ok (.hbyte 97) ∧
    decode 0b00_0_0000000001000_00000000_00010010 = .ok (.hbuf 8) ∧
    decode 0b00_0_0000000000000_00000000_00010011 = .ok .seedh := by decide

theorem test_decode_generator :
    decode 0b00_0_0000000000000_00000000_00100000 = .ok .seedr ∧
    decode 0b00_0_0000000000000_00000000_00100001 = .ok .next ∧
    decode 0b00_0_0000000010000_00000000_00100010 = .ok (.nextn 16) ∧
    decode 0b00_0_0000000000000_00000000_00100011 = .ok .ksgen := by decide

theorem test_decode_permuter :
    decode 0b00_0_0000000000000_00000010_00110000 = .ok (.ksld 2) ∧
    decode 0b00_0_0000000000000_11111111_00110001 = .ok (.sha 255) ∧
    decode 0b00_0_0000000000000_00000001_00110010 = .ok (.shd 1) := by decide

theorem test_decode_block_transform :
    decode 0b00_0_0000000000000_00000001_01000000 = .ok (.pvld 1) ∧
    decode 0b00_0_0000000000000_00000011_01000001 = .ok (.eblk 3) ∧
    decode 0b00_0_0000000000000_00000100_01000010 = .ok (.dblk 4) ∧
    decode 0b00_0_0000000000000_10000000_01000011 = .ok (.eblks 128) ∧
    decode 0b00_0_0000000000000_00000101_01000100 = .ok (.dblks 5) := by decide

theorem test_decode_framer :
    decode 0b00_0_0000000000000_00000000_01010000 = .ok .cinit ∧
    decode 0b00_0_0111111111111_00000000_01010001 = .ok (.pad 4095) ∧
    decode 0b00_0_0000000010000_00000000_01010010 = .ok (.unpad 16) ∧
    decode 0b00_1_0000000000101_00000000_01010011 = .ok (.echnk 5 true) ∧
    decode 0b00_0_1000000000000_00000000_01010100 = .ok (.dchnk 4096 false) := by decide

/-- V-DEC-1 to V-DEC-5, V-CTRL-3 and V-CTRL-4. -/
theorem test_decode_refuses :
    decode 0x000000FF = .error .badOp ∧ decode 0xC0000002 = .error .badOp ∧
    decode 0x00000121 = .error .rsvd ∧ decode 0x20100051 = .error .rsvd ∧
    decode 0x5FFF0053 = .error .rsvd ∧ decode 0x00010001 = .error .rsvd ∧
    decode 0x40000000 = .error .rsvd := by decide

/-- V-DEC-6 to V-DEC-9: LEN comes before SEQ. -/
theorem test_len_before_seq :
    classify 0x1FFF0022 = .len (.nextn 8191) ∧ classify 0x00080053 = .len (.echnk 8 false) ∧
    (next? (exec (.echnk 8 false) State.reset)).map statusWord = some 0x32 ∧
    (next? (exec (.echnk 16 false) State.reset)).map statusWord = some 0x42 := by decide

/-- R121: the worked words of the spec, from the encoder. -/
theorem test_encode :
    encode (.hbyte 97) = 0x00006111 ∧ encode (.eblk 3) = 0x00000341 ∧ encode (.echnk 4096 false) = 0x10000053 ∧
    encode (.echnk 5 true) = 0x20050053 ∧ encode (.dchnk 32 true) = 0x20200054 ∧
    encode (.nextn 16) = 0x00100022 := by decide

theorem test_decodeTableWord :
    decodeTableWord 32 0x20050053 = some (.echnk 5 true) ∧ decodeTableWord 32 0xFF = none := by decide

/-- W1: a NEXT placed after reset draws 0x39 (R145). -/
theorem test_withFetchWord_runs :
    (next? (step (State.reset.withFetchWord 32 0x21))).map (·.result) = some 0x39 := by decide

/-! ## One or two vectors a command (95_test_vectors.md) -/

/-- V-CTRL-1. -/
theorem test_nop_clears_err :
    (next? (exec .nop { State.reset with err := 3, errs := true })).map statusWord = some 2 := by decide

/-- V-CTRL-2. -/
theorem test_srst_keeps_buf :
    next? (exec .srst { State.reset with phase := .done, errs := true, curr := 0xD1, buf := bufAt 0 [0x68] })
      = some { State.reset with buf := bufAt 0 [0x68] } := by decide

/-- R263. -/
theorem test_hclr : (next? (exec .hclr { State.reset with hash := 0x611841 })).map (·.hash) = some 0 := by decide

/-- V-HASH-2: "b" after "a". -/
theorem test_hbyte :
    (next? (exec (.hbyte 0x62) { State.reset with hash := 97 })).map (·.hash) = some 0x611841 := by decide

/-- V-HASH-8: 0xFF, in both extensions. -/
theorem test_hash_extension :
    seedOf false [0xFF] = 0xFF ∧ seedOf true [0xFF] = 0xFFFFFFFFFFFFFFFF ∧
    seedOf false [0x80, 0x61] = 0x801FE1 ∧ seedOf true [0x80, 0x61] = 0xFFFFFFFFFF7FE0E1 := by decide

/-- V-HASH-5: "password" wraps modulo 2^64. -/
theorem test_hbuf_password :
    (next? (exec (.hbuf 8) { State.reset with
      buf := bufAt 0 [0x70, 0x61, 0x73, 0x73, 0x77, 0x6F, 0x72, 0x64] })).map (·.hash)
      = some 0xCC4B7890CEE65D5B := by decide

/-- V-HASH-11: HBUF 0 reads nothing. -/
theorem test_hbuf_empty : (next? (exec (.hbuf 0) State.reset)).map (·.hash) = some 0 := by decide

/-- W1: SEEDH. -/
theorem test_seedh :
    (next? (exec .seedh { State.reset with hash := 97 })).map (fun t => (t.curr, t.phase)) =
      some (97, .seeded) := by decide

/-- V-GEN-9: SEEDR keeps all 64 bits. -/
theorem test_seedr :
    (next? (exec .seedr { State.reset with seed := 0x100000061, phase := .done })).map (fun t => (t.curr, t.phase)) =
      some (0x100000061, .seeded) := by decide

/-- V-GEN-9: one draw from a wide seed. -/
theorem test_next :
    (next? (exec .next { State.reset with curr := 0x100000061 })).map (fun t => (t.curr, t.result)) =
      some (0x86, 0x86) := by decide

/-- V-GEN-1. -/
theorem test_nextn :
    (next? (exec (.nextn 16) { State.reset with curr := 97 })).map (fun t => (t.buf, t.result, t.curr)) =
      some (bufAt 0 k97, 0xD1, 209) := by decide

/-- V-GEN-10. -/
theorem test_nextn_zero :
    (next? (exec (.nextn 0) { State.reset with curr := 97, result := 0x55 })).map
      (fun t => (t.buf, t.result, t.curr)) = some ([], 0x55, 97) := by decide

/-- V-GEN-3. -/
theorem test_ksgen :
    (next? (exec .ksgen State.reset)).map (fun t => (t.ks.toList, t.curr)) =
      some ([0x39, 0x7E, 0xDF, 0x2C, 0xF5, 0x8A, 0xFB, 0x18, 0x71, 0x56, 0xD7, 0xC4, 0xAD, 0xE2, 0x73, 0x30], 48) := by
  decide

/-- R174: KSLD 2 reads BUF[0x20..0x2F]. -/
theorem test_ksld :
    (next? (exec (.ksld 2) { State.reset with buf := bufAt 0x20 k97 })).map (·.ks.toList) = some k97 := by decide

/-- V-PERM-1. -/
theorem test_sha :
    (next? (exec (.sha 0) (withKs k97 (bufAt 0 ramp)))).map (·.buf) =
      some (bufAt 0 [0x0C, 0x09, 0x01, 0x0F, 0x04, 0x0B, 0x0A, 0x07, 0x0E, 0x0D, 0x08, 0x00, 0x03, 0x02, 0x05, 0x06]) := by
  decide

/-- V-PERM-5: ascending order, where the order matters. -/
theorem test_sha_order :
    (next? (exec (.sha 0) (withKs [0x01, 0x12] (bufAt 0 ramp)))).map (·.buf) =
      some (bufAt 0 [1, 2, 0, 3, 4, 5, 6, 7, 8, 9, 10, 11, 12, 13, 14, 15]) := by decide

/-- V-PERM-6: descending order, where the order matters. -/
theorem test_shd_order :
    (next? (exec (.shd 0) (withKs [0x01, 0x12] (bufAt 0 ramp)))).map (·.buf) =
      some (bufAt 0 [2, 0, 1, 3, 4, 5, 6, 7, 8, 9, 10, 11, 12, 13, 14, 15]) := by decide

/-- R193: PVLD 1 reads BUF[0x10..0x1F]. -/
theorem test_pvld :
    (next? (exec (.pvld 1) { State.reset with buf := bufAt 0x10 k97 })).map (·.prev.toList) = some k97 := by decide

/-- V-BLK-1. -/
theorem test_eblk :
    (next? (exec (.eblk 0) (sessionA (bufAt 0 letters)))).map
      (fun t => (t.buf, t.prev.toList, t.ks.toList, t.curr)) = some (bufAt 0 cipher, cipher, s1, 65) := by decide

/-- V-BLK-2. -/
theorem test_dblk :
    (next? (exec (.dblk 0) (sessionA (bufAt 0 cipher)))).map (fun t => (t.buf, t.prev.toList, t.ks.toList)) =
      some (bufAt 0 letters, cipher, s1) := by decide

/-- V-BLK-5. -/
theorem test_eblks :
    (next? (exec (.eblks 0) (withKs s1 (bufAt 0 (List.replicate 16 0))))).map (fun t => (t.buf, t.prev.toList, t.curr)) =
      some (bufAt 0 s1, s1, 0) := by decide

/-- V-BLK-6. -/
theorem test_dblks :
    (next? (exec (.dblks 0) (withKs s1 (bufAt 0 s1)))).map (fun t => (t.buf, t.prev.toList, t.curr)) =
      some (bufAt 0 (List.replicate 16 0), s1, 0) := by decide

/-- R221. -/
theorem test_cinit :
    next? (exec .cinit { State.reset with hash := 97, curr := 97, phase := .seeded }) = some (sessionA []) := by decide

/-- V-FRAME-24: a second CINIT. -/
theorem test_cinit_seq : (next? (exec .cinit (sessionA []))).map (·.err) = some 4 := by decide

/-- R223. -/
theorem test_pad :
    (next? (exec (.pad 5) State.reset)).map (fun t => (t.buf, t.outLen)) =
      some (bufAt 5 (List.replicate 11 0x0B), 16) := by decide

/-- V-FRAME-10. -/
theorem test_pad_top :
    (next? (exec (.pad 4095) State.reset)).map (fun t => (t.buf, t.outLen)) = some ([(4095, 1)], 4096) := by decide

/-- V-FRAME-14: the whole range is padding. -/
theorem test_unpad_all :
    (next? (exec (.unpad 16) { State.reset with buf := [(15, 16)] })).map (fun t => (t.outLen, t.err)) =
      some (0, 0) := by decide

/-- V-FRAME-15. -/
theorem test_unpad_error :
    (next? (exec (.unpad 16) { State.reset with buf := [(15, 17)], outLen := 7 })).map
      (fun t => (t.outLen, statusWord t)) = some (0, 0x52) := by decide

/-- V-FRAME-2. -/
theorem test_echnk_hello :
    (next? (exec (.echnk 5 true) (sessionA (bufAt 0 [0x68, 0x65, 0x6C, 0x6C, 0x6F])))).map
      (fun t => (t.buf, t.outLen, t.phase)) = some (bufAt 0 hello, 16, .done) := by decide

/-- V-FRAME-25. -/
theorem test_echnk_unwritten :
    stop? (exec (.echnk 5 true) (sessionA [])) = some (.unwrittenBufRead 0) := by decide

/-- V-FRAME-6. -/
theorem test_dchnk_hello :
    (next? (exec (.dchnk 16 true) (sessionA (bufAt 0 hello)))).map (fun t => (t.buf, t.outLen, t.err)) =
      some (bufAt 0 ([0x68, 0x65, 0x6C, 0x6C, 0x6F] ++ List.replicate 11 0x0B), 5, 0) := by decide

/-- V-FRAME-7: the wrong password ends in PAD, with the work standing. -/
theorem test_dchnk_wrong_password :
    ((next? (exec .cinit { State.reset with curr := 98, phase := .seeded })).bind fun t =>
      next? (exec (.dchnk 16 true) { t with buf := bufAt 0 hello })).map
      (fun t => (t.buf, t.outLen, t.err, t.phase)) =
      some (bufAt 0 [0x07, 0x96, 0xEC, 0xC6, 0xF2, 0xCD, 0x65, 0xF1, 0x89, 0x3D, 0xE9, 0xB7, 0x3A, 0xFD, 0x12, 0xA6],
        0, 5, .done) := by decide +kernel

/-! ## The host port (V-MEM) -/

/-- V-MEM-1, V-MEM-2. -/
theorem test_buf_read_little_endian :
    ((next? (hostRead 0x1000 4 (sessionA (bufAt 0 hello)))).map (·.responses)) = some [.data 0x15F169C5] ∧
    ((next? (hostRead 0x100C 4 (sessionA (bufAt 0 hello)))).map (·.responses)) = some [.data 0x201CD9F2] := by decide

/-- V-MEM-4. -/
theorem test_buf_write_little_endian :
    (next? (hostWrite 0x1000 4 0x6C6C6568 State.reset)).map (·.buf) =
      some (bufAt 0 [0x68, 0x65, 0x6C, 0x6C]) := by decide

/-- V-MEM-6, V-MEM-7. -/
theorem test_bus_errors :
    (next? (hostRead 0x1001 2 State.reset)).map (·.fault) = some (some (.busError 0x1001 2)) ∧
    (next? (hostRead 0x008 1 State.reset)).map (·.fault) = some (some (.busError 0x008 1)) := by decide

/-- V-MEM-8, V-MEM-9. -/
theorem test_register_reads :
    (next? (hostRead 0x000 4 State.reset)).map (·.responses) = some [.data 0x53420001] ∧
    (next? (hostRead 0x014 4 State.reset)).map (·.responses) = some [.data 0] ∧
    (next? (hostRead 0xFFC 4 State.reset)).map (·.responses) = some [.data 0] := by decide

/-- V-MEM-10, V-MEM-11. -/
theorem test_register_writes :
    (next? (hostWrite 0x00C 4 5 State.reset)).map (·.result) = some 0 ∧
    (next? (hostWrite 0x01C 4 1 { State.reset with seed := 0x61 })).map (·.seed) = some 0x100000061 := by decide

/-- V-MEM-12. -/
theorem test_unwritten_host_read : stop? (hostRead 0x1000 1 State.reset) = some (.unwrittenBufRead 0) := by decide

/-! ## Witnesses: the hypotheses of each statement are met, each clause at a boundary of its range -/

/-- No command runs after reset: for SeedWritesChangeSeedOnly and the other statements about a quiet port. -/
theorem test_quiet_reset : quiet State.reset := by decide

theorem test_witness_DecodableWordsAreTheLegalWords : decode 0x20050053 = .ok (.echnk 5 true) := by decide

theorem test_witness_ClassifyFollowsTheDecoderOrder :
    ¬ opAssigned 0xC0000002 ∧ (opAssigned 0x5FFF0053 ∧ ¬ fitsRow 0x5FFF0053) ∧
    (fitsRow 0x10010012 ∧ ¬ legalLen (.hbuf 4097)) ∧ fitsRow 0x10000012 ∧ legalLen (.hbuf 4096) := by
  refine ⟨by unfold opAssigned; decide, ⟨by unfold opAssigned; decide, by unfold fitsRow; decide⟩,
    ⟨by unfold fitsRow; decide, by simp [legalLen]⟩, by unfold fitsRow; decide, by simp [legalLen]⟩

theorem test_witness_UnassignedOpcodeCompletesWithBadOp :
    completes (latched 0xC0000002) 0xC0000002 ∧ ¬ opAssigned 0xC0000002 :=
  ⟨by decide, by unfold opAssigned; decide⟩

theorem test_witness_ReservedBitsCompleteWithRsvd :
    completes (latched 0x121) 0x121 ∧ opAssigned 0x121 ∧ ¬ fitsRow 0x121 :=
  ⟨by decide, by unfold opAssigned; decide, by unfold fitsRow; decide⟩

theorem test_witness_LenErrorExactlyForIllegalLen :
    ¬ legalLen (.pad 4096) ∧ legalLen (.pad 4095) ∧ ∃ t, exec (.pad 4095) State.reset = .next t :=
  ⟨by simp [legalLen], by simp [legalLen], _, rfl⟩

theorem test_witness_SeqErrorExactlyForWrongPhase :
    legalLen .cinit ∧ ¬ phaseOk .cinit State.reset.phase ∧ phaseOk .cinit .seeded ∧
    ∃ t, exec .cinit { State.reset with phase := .seeded } = .next t :=
  ⟨trivial, by simp [phaseOk, State.reset], rfl, _, rfl⟩

theorem test_witness_StepRunsTheDecodedCommand :
    completes (latched 0x21) 0x21 ∧ decode 0x21 = .ok .next := by decide

theorem test_witness_EveryCompletionWritesStatus :
    (∃ t, exec .nop State.reset = .next t ∧ t.err = 0) ∧
    ∃ t, exec (.pad 4096) State.reset = .next t ∧ t.err ≠ 0 :=
  ⟨⟨_, rfl, rfl⟩, ⟨_, rfl, by decide⟩⟩

/-- Codes 1 to 4: BADOP, RSVD, LEN, SEQ. -/
theorem test_witness_ErrorsBeforeWorkArePrecise :
    ((next? (step (latched 0xFF))).map (·.err), (next? (step (latched 0x121))).map (·.err),
      (next? (step (latched 0x10000051))).map (·.err), (next? (step (latched 0x50))).map (·.err)) =
      (some 1, some 2, some 3, some 4) ∧ completes (latched 0xFF) 0xFF := by decide

/-- A completion with a code, SRST, and the release of the hardware reset. -/
theorem test_witness_ErrsIsStickyUntilReset :
    (completes (latched 0xFF) 0xFF ∧ (next? (step (latched 0xFF))).map (·.err) = some 1) ∧
    (next? (step { latched 1 with errs := true })).map (·.errs) = some false ∧
    (next? (step { State.reset with resetAsserted := true, errs := true, events := [.releaseReset] })).map (·.errs) =
      some false := by decide

/-- Each offset of R38 at its bounds, SRST, the release of the hardware reset, and a dropped write. -/
theorem test_witness_OvrIsSetByDroppedWritesAndSticky :
    (latched 0).busy = true ∧ (latched 0).resetAsserted = false ∧ legalAccess 0x004 4 = true ∧
    legalAccess 0x018 4 = true ∧ legalAccess 0x01C 4 = true ∧ legalAccess 0x1000 4 = true ∧
    legalAccess 0x1FFF 1 = true ∧
    (next? (step { latched 1 with ovr := true })).map (·.ovr) = some false ∧
    (next? (step { State.reset with resetAsserted := true, ovr := true, events := [.releaseReset] })).map (·.ovr) =
      some false ∧
    (latched 1).ovr = false ∧
    (next? (step { latched 1 with events := [.write 0x1FFF 1 0] })).map (·.ovr) = some true := by decide

theorem test_witness_BusyRisesAndFallsOnlyAsStated :
    (next? (step { State.reset with events := [.write 0x004 4 0] })).map (·.busy) = some true ∧
    (next? (step (latched 0))).map (·.busy) = some false := by decide

theorem test_witness_PhaseFollowsTheSessionTable :
    (next? (exec .cinit { State.reset with phase := .seeded })).map (·.phase) = some .chained ∧
    (completes (latched 0xFF) 0xFF ∧ decode 0xFF = .error .badOp ∧ (next? (step (latched 0xFF))).isSome = true) ∧
    { State.reset with resetAsserted := true }.resetAsserted = true := by decide

theorem test_witness_RegistersAreWrittenOnlyByTheirCommands :
    (∃ t, exec (.nextn 0) State.reset = .next t) ∧ Instr.nextn 0 ≠ .srst := ⟨⟨_, rfl⟩, by decide⟩

/-- A stored range that ends at the top of BUF. -/
theorem test_witness_CommandsStoreOnlyTheirBytes :
    (∃ t, exec (.pad 4095) State.reset = .next t) ∧ storeRange (.pad 4095) = (4095, 1) := ⟨⟨_, rfl⟩, by decide⟩

/-- The last byte of a range unmarked, and a range all marked. -/
theorem test_witness_UnmarkedReadsStopAtTheLowestAddress :
    (legalLen (.echnk 5 true) ∧ phaseOk (.echnk 5 true) .chained ∧ readRange (.echnk 5 true) = (0, 5) ∧
      (bufAt 0 [1, 2, 3, 4]).read 4 = none ∧ marked (bufAt 0 [1, 2, 3, 4]) 0 4) ∧
    marked (bufAt 0 [1, 2, 3, 4, 5]) 0 5 :=
  ⟨⟨by simp [legalLen], rfl, rfl, by decide, by decide⟩, by decide⟩

theorem test_witness_HbufHashesThePrefixInOrder :
    [(0x61 : Byte), 0x62].length = (2 : BitVec 13).toNat ∧ (2 : BitVec 13).toNat ≤ 4096 ∧
    holdsBytes (bufAt 0 [0x61, 0x62]) 0 [0x61, 0x62] := by decide

theorem test_witness_GeneratorHasPeriodExactly256 :
    (0 < 255 ∧ 255 < 256) ∧ (0x61 : DWord).toNat % 256 = (0x100000061 : DWord).toNat % 256 := by decide

theorem test_witness_NextnStoresTheDrawsInOrder :
    (0 : BitVec 13).toNat ≤ 4096 ∧ (4096 : BitVec 13).toNat ≤ 4096 := by decide

theorem test_witness_KsgenAndCinitDrawSixteenBytes : ({ State.reset with phase := .seeded } : State).phase = .seeded :=
  rfl

theorem test_witness_DrawsDependOnlyOnTheCommand :
    ((∃ t, exec .next State.reset = .next t) ∧ Instr.next ≠ .seedr ∧ Instr.next ≠ .seedh ∧ Instr.next ≠ .srst) ∧
    completes (latched 0xFF) 0xFF ∧ decode 0xFF = .error .badOp ∧ (next? (step (latched 0xFF))).isSome = true :=
  ⟨⟨⟨_, rfl⟩, by decide⟩, by decide⟩

/-- The lowest and the highest block: for the block loads, the shuffles, EBLK, DBLK, EBLKS and DBLKS. -/
theorem test_witness_block_commands :
    holdsBlock (bufAt 0 k97) (16 * (0 : BitVec 8).toNat) (blockOf k97) ∧
    holdsBlock (bufAt 4080 k97) (16 * (255 : BitVec 8).toNat) (blockOf k97) := by decide

theorem test_witness_KsgenThenStoredEqualsFresh : ∃ t, exec .ksgen State.reset = .next t := ⟨_, rfl⟩

theorem test_witness_PadCountReachesTheNextBlock : (4095 : Nat) ≤ 4095 := by decide

theorem test_witness_PadAppendsThePadding : (4095 : BitVec 13).toNat ≤ 4095 := by decide

/-- `v = len`, and one more. -/
theorem test_witness_UnpadSubtractsTheLastByte :
    legalLen (.unpad 16) ∧
    (Memory.read [(15, 16)] ((16 : BitVec 13).toNat - 1) = some 16 ∧ (16 : Byte).toNat ≤ (16 : BitVec 13).toNat) ∧
    Memory.read [(15, 17)] ((16 : BitVec 13).toNat - 1) = some 17 ∧ (16 : BitVec 13).toNat < (17 : Byte).toNat :=
  ⟨by simp [legalLen], by decide⟩

/-- An empty final chunk, which is all padding, and one whole block. -/
theorem test_witness_EchnkEncryptsEveryBlock :
    (legalLen (.echnk 0 true) ∧ (sessionA []).phase = .chained ∧ ([] : List Byte).length = (0 : BitVec 13).toNat ∧
      holdsBytes (sessionA []).buf 0 [] ∧
      bytesOf [blockOf (List.replicate 16 16)] = [] ++ padOf (0 : BitVec 13).toNat) ∧
    legalLen (.echnk 16 false) ∧ letters.length = (16 : BitVec 13).toNat ∧
    holdsBytes (sessionA (bufAt 0 letters)).buf 0 letters ∧ bytesOf [blockOf letters] = letters :=
  ⟨⟨by simp [legalLen], by decide⟩, by simp [legalLen], by decide⟩

/-- `test_dchnk_hello` and `test_dchnk_wrong_password` meet the two cases of the last byte. -/
theorem test_witness_DchnkDecryptsEveryBlock :
    legalLen (.dchnk 16 true) ∧ (sessionA (bufAt 0 hello)).phase = .chained ∧
    16 * [blockOf hello].length = (16 : BitVec 13).toNat ∧
    holdsBytes (sessionA (bufAt 0 hello)).buf 0 (bytesOf [blockOf hello]) :=
  ⟨by simp [legalLen], by decide⟩

/-- V-FRAME-2, and a decrypting session over its output. -/
theorem test_witness_DecryptingAChunkRestoresIt :
    (sessionA (bufAt 0 [0x68, 0x65, 0x6C, 0x6C, 0x6F])).phase = .chained ∧
    (next? (exec (.echnk 5 true) (sessionA (bufAt 0 [0x68, 0x65, 0x6C, 0x6C, 0x6F])))).map
      (fun t => (t.err, t.outLen, t.buf)) = some (0, 16, bufAt 0 hello) ∧
    (sessionA (bufAt 0 hello)).phase = .chained ∧ (sessionA (bufAt 0 hello)).curr = (sessionA []).curr ∧
    (sessionA (bufAt 0 hello)).prev = (sessionA []).prev := by decide

/-- The second block of V-FRAME-4 and V-FRAME-5: `letters` is followed by a block of padding. -/
def padCipher : List Byte :=
  [0x6C, 0x23, 0x51, 0xA4, 0xE3, 0x5C, 0x6A, 0x43, 0x11, 0xA1, 0x21, 0x43, 0xF3, 0x98, 0xCA, 0x8F]

/-- Encryption: sixteen bytes and an empty final chunk (V-FRAME-4), against one final chunk (V-FRAME-5); and two
non-final chunks against one. -/
theorem test_witness_SplittingAChunkChangesNothing_encrypt :
    (legalLen (.echnk 16 true) ∧ legalLen (.echnk 16 false) ∧ legalLen (.echnk 0 true)) ∧
    (legalLen (.echnk 32 false) ∧ (32 : BitVec 13).toNat = (16 : BitVec 13).toNat + (16 : BitVec 13).toNat) ∧
    (16 : BitVec 13).toNat = (16 : BitVec 13).toNat + (0 : BitVec 13).toNat ∧
    (next? (exec (.echnk 16 true) (sessionA (bufAt 0 letters)))).map (fun t => (t.buf, t.outLen)) =
      some (bufAt 0 (cipher ++ padCipher), 32) ∧
    ((next? (exec (.echnk 16 false) (sessionA (bufAt 0 letters)))).bind fun u =>
      (next? (exec (.echnk 0 true) { u with buf := [] })).map fun v => (u.buf, u.outLen, v.buf, v.outLen)) =
      some (bufAt 0 cipher, 16, bufAt 0 padCipher, 16) ∧
    (next? (exec (.echnk 32 false) (sessionA (bufAt 0 (letters ++ ramp))))).isSome = true ∧
    ((next? (exec (.echnk 16 false) (sessionA (bufAt 0 (letters ++ ramp))))).bind fun u =>
      next? (exec (.echnk 16 false) { u with buf := bufAt 0 ramp })).isSome = true :=
  ⟨⟨by simp [legalLen], by simp [legalLen], by simp [legalLen]⟩, ⟨by simp [legalLen], by decide⟩, by decide +kernel⟩

/-- Decryption of the same ciphertext, as one final chunk and as two chunks; the second one raises no PAD error. -/
theorem test_witness_SplittingAChunkChangesNothing_decrypt :
    (legalLen (.dchnk 32 true) ∧ legalLen (.dchnk 16 false) ∧ legalLen (.dchnk 16 true)) ∧
    (32 : BitVec 13).toNat = (16 : BitVec 13).toNat + (16 : BitVec 13).toNat ∧
    (∀ x < (16 : BitVec 13).toNat, (bufAt 0 padCipher).read x =
      (sessionA (bufAt 0 (cipher ++ padCipher))).buf.read ((16 : BitVec 13).toNat + x)) ∧
    (next? (exec (.dchnk 32 true) (sessionA (bufAt 0 (cipher ++ padCipher))))).map (fun t => (t.err, t.outLen)) =
      some (0, 16) ∧
    ((next? (exec (.dchnk 16 false) (sessionA (bufAt 0 (cipher ++ padCipher))))).bind fun u =>
      (next? (exec (.dchnk 16 true) { u with buf := bufAt 0 padCipher })).map fun v =>
        (u.buf.readBlock 0, v.err, v.outLen)) = some (.ok (blockOf letters), 0, 0) :=
  ⟨⟨by simp [legalLen], by simp [legalLen], by simp [legalLen]⟩, by decide +kernel⟩

theorem test_witness_RegisterReadsFollowTheMap :
    quiet State.reset ∧ (0x050 % 4 = 0 ∧ 0x050 ≤ 0x050) ∧ 0xFFC % 4 = 0 ∧ 0xFFC < 0x1000 := by decide

theorem test_witness_HostReadsChangeNoState :
    (next? (step { State.reset with events := [.read 0x000 4] })).isSome = true ∧ legalAccess 0x000 4 = true := by
  decide

theorem test_witness_CmdWritesAreAcceptedOrDropped :
    (State.reset.resetAsserted = false ∧ State.reset.busy = false) ∧
    (latched 0).resetAsserted = false ∧ (latched 0).busy = true := by decide

/-- ID, STATUS and the last reserved offset. -/
theorem test_witness_ReadOnlyWritesAreIgnored :
    State.reset.resetAsserted = false ∧
    ∀ off ∈ [0x000, 0x008, 0x00C, 0x020, 0xFFC], off % 4 = 0 ∧ off < 0x1000 ∧ off ≠ 0x004 ∧ off ≠ 0x018 ∧ off ≠ 0x01C := by
  decide

/-- The last legal access of each size. -/
theorem test_witness_BufWritesStoreLittleEndian :
    quiet State.reset ∧ ∀ p ∈ [(4095, 1), (4094, 2), (4092, 4)], p.1 % p.2 = 0 ∧ p.1 + p.2 ≤ 4096 := by decide

/-- All bytes marked, and the second one unmarked. -/
theorem test_witness_BufReadsReturnTheStoredBytes :
    quiet { State.reset with buf := bufAt 4094 [1, 2] } ∧ 4094 % 2 = 0 ∧ 4094 + 2 ≤ 4096 ∧
    marked (bufAt 4094 [1, 2]) 4094 2 ∧
    marked (bufAt 4094 [1]) 4094 1 ∧ (bufAt 4094 [1]).read (4094 + 1) = none := by decide

theorem test_witness_BusyReadsAreExactOrFree :
    (latched 0).busy = true ∧ (latched 0).resetAsserted = false ∧ legalAccess 0x00C 4 = true ∧
    legalAccess 0x04C 4 = true ∧ legalAccess 0x1FFF 1 = true := by decide

/-- A misaligned access, a narrow register access and an access past the window, and a fault that stays. -/
theorem test_witness_BusErrorsAreRecordedForever :
    (∀ p ∈ [(0x1001, 2), (0x008, 1), (0x2000, 4)], ¬ (p.1 < 0x1000 ∧ p.2 = 4 ∧ p.1 % 4 = 0 ∨
      0x1000 ≤ p.1 ∧ p.1 < 0x2000 ∧ (p.2 = 1 ∨ p.2 = 2 ∨ p.2 = 4) ∧ p.1 % p.2 = 0)) ∧
    (next? (step { latched 1 with fault := some (.busError 8 1) })).map (·.fault) = some (some (.busError 8 1)) ∧
    (next? (hostRead 0x1001 2 { State.reset with resetAsserted := true })).map (·.responses) = some [.busError] := by
  decide

theorem test_witness_HardwareResetTakesEffect :
    { State.reset with resetAsserted := true }.resetAsserted = true ∧ legalAccess 0x000 4 = true := by decide

/-- One poll of STATUS before the engine's turn. -/
theorem test_witness_LatchedCommandsComplete :
    (latched 0).resetAsserted = false ∧
    ∃ t, Sys2Proof.core.run 2 { latched 0 with events := [.read 0x008 4] } = .next t := ⟨by decide, _, rfl⟩

/-- The invariant in a state that is not the reset state, which steps. -/
theorem test_witness_EveryStepKeepsTheInvariant :
    Safety.Inv (latched 0x21) ∧ (next? (step (latched 0x21))).isSome = true := by
  refine ⟨?_, by decide⟩
  constructor <;> simp [latched, State.reset, Memory.wf]

end Sys2Proof.Tests
end

/-!
SUPPORT and PROOFS for spec/10_state.md. First what a completed command can have done (`Work`, `exec_cases`) and what
one step can have done (`Happens`, `step_cases`), each said once, and what an access to the register window does; then
the statements about the invariant, STATUS, the registers and the host port, each from these.
-/

namespace Sys2Proof.Machine

open Sys2Proof.Certificates

/-! ## What a command can have done before it completes -/

/-- `c'` is a state the generator reaches from `c`: a value below the modulus, or `c` itself where nothing was
drawn (R45, R148). -/
def Drawn (c c' : DWord) : Prop := c' < Config.lcgM ∨ c' = c

theorem drawn_iterate (n : Nat) (c : DWord) : Drawn c (lcgStep^[n] c) := by
  cases n with
  | zero => exact .inr rfl
  | succ n => exact .inl (lcgStep_iterate_lt n.succ_pos c)

theorem drawBlock_snd_lt (c : DWord) : (drawBlock c).2 < Config.lcgM :=
  drawBlock_snd c ▸ lcgStep_iterate_lt (by decide) c

/-- The registers a command other than SRST may have rewritten when it completes (R41 to R48), one constructor a
command: `Work s i u` says that `i`, begun in `s`, has made `u` of it, with only BUSY, LATCH, ERR and ERRS still
to be written by the completion. The premises are what the invariant needs of the new values. -/
inductive Work (s : State) : Instr → State → Prop
  /-- Nothing was done: NOP, and the error codes LEN and SEQ (R304, R305). -/
  | idle (i : Instr) : Work s i s
  | hclr (h : DWord) : Work s .hclr { s with hash := h }
  | hbyte (c : Byte) (h : DWord) : Work s (.hbyte c) { s with hash := h }
  | hbuf (len : BitVec 13) (h : DWord) : Work s (.hbuf len) { s with hash := h }
  | seedh (c : DWord) : Work s .seedh { s with curr := c, phase := .seeded }
  | seedr (c : DWord) : Work s .seedr { s with curr := c, phase := .seeded }
  | next (c : DWord) (r : Byte) (hc : Drawn s.curr c) : Work s .next { s with curr := c, result := r }
  | nextn (len : BitVec 13) (m : Memory) (c : DWord) (r : Byte) (hm : s.buf.wf → m.wf) (hc : Drawn s.curr c)
      (hr : len = 0 → r = s.result) : Work s (.nextn len) { s with buf := m, curr := c, result := r }
  | ksgen (k : Block) (c : DWord) (hc : Drawn s.curr c) : Work s .ksgen { s with ks := k, curr := c }
  | ksld (b : Byte) (k : Block) : Work s (.ksld b) { s with ks := k }
  | sha (b : Byte) (m : Memory) (hm : s.buf.wf → m.wf) : Work s (.sha b) { s with buf := m }
  | shd (b : Byte) (m : Memory) (hm : s.buf.wf → m.wf) : Work s (.shd b) { s with buf := m }
  | pvld (b : Byte) (p : Block) : Work s (.pvld b) { s with prev := p }
  | eblk (b : Byte) (m : Memory) (c : Chain) (hm : s.buf.wf → m.wf) (hc : Drawn s.curr c.curr) :
      Work s (.eblk b) { s.withChain c with buf := m }
  | dblk (b : Byte) (m : Memory) (c : Chain) (hm : s.buf.wf → m.wf) (hc : Drawn s.curr c.curr) :
      Work s (.dblk b) { s.withChain c with buf := m }
  | eblks (b : Byte) (m : Memory) (p : Block) (hm : s.buf.wf → m.wf) :
      Work s (.eblks b) { s with prev := p, buf := m }
  | dblks (b : Byte) (m : Memory) (p : Block) (hm : s.buf.wf → m.wf) :
      Work s (.dblks b) { s with prev := p, buf := m }
  | cinit (p : Block) (c : DWord) (hc : c < Config.lcgM) :
      Work s .cinit { s with prev := p, curr := c, phase := .chained }
  | pad (len : BitVec 13) (m : Memory) (o : BitVec 13) (hm : s.buf.wf → m.wf) (ho : o.toNat ≤ Config.chunk) :
      Work s (.pad len) { s with buf := m, outLen := o }
  | unpad (len o : BitVec 13) (ho : o.toNat ≤ Config.chunk) : Work s (.unpad len) { s with outLen := o }
  | echnk (len : BitVec 13) (final : Bool) (m : Memory) (c : Chain) (o : BitVec 13) (hp : s.phase = .chained)
      (hm : s.buf.wf → m.wf) (hc : Drawn s.curr c.curr) (ho : o.toNat ≤ Config.chunk) :
      Work s (.echnk len final)
        { s.withChain c with buf := m, outLen := o, phase := if final then .done else .chained }
  | dchnk (len : BitVec 13) (final : Bool) (m : Memory) (c : Chain) (o : BitVec 13) (hp : s.phase = .chained)
      (hm : s.buf.wf → m.wf) (hc : Drawn s.curr c.curr) (ho : o.toNat ≤ Config.chunk) :
      Work s (.dchnk len final)
        { s.withChain c with buf := m, outLen := o, phase := if final then .done else .chained }

theorem lenPrefix_le {len : BitVec 13} (h : lenPrefix len = true) : len.toNat ≤ Config.chunk := by
  simpa [lenPrefix] using h

theorem lenBlocks_le {len : BitVec 13} (h : lenBlocks len = true) : len.toNat ≤ Config.chunk := by
  simp only [lenBlocks, Bool.and_eq_true, decide_eq_true_eq] at h
  exact h.1.2

theorem lenPartial_padded_le {len : BitVec 13} (h : lenPartial len = true) :
    len.toNat + padCount len.toNat ≤ Config.chunk := paddedLen_le (final := true) h

/-- Padding a legal chunk keeps BUF canonical. -/
theorem paddedBuf_wf {len : BitVec 13} {final : Bool} {m : Memory} (h : lenEchnk len final = true) (hm : m.wf) :
    (paddedBuf len final m).wf := by
  cases final with
  | false => exact hm
  | true => exact Memory.writeBytes_wf hm (by rw [padBytes_length]; exact paddedLen_le h)

theorem drawn_stepBlock {f : Chain → Block → Block × Chain} (hf : ∀ c B, (f c B).2.curr = lcgStep^[16] c.curr)
    (s : State) (B : Block) : Drawn s.curr (f s.chain B).2.curr := hf s.chain B ▸ drawn_iterate 16 s.curr

theorem drawn_runBlocks {f : Chain → Block → Block × Chain} (hf : ∀ c B, (f c B).2.curr = lcgStep^[16] c.curr)
    (s : State) (Bs : List Block) : Drawn s.curr (runBlocks f s.chain Bs).2.curr :=
  runBlocks_curr hf s.chain Bs ▸ drawn_iterate (16 * Bs.length) s.curr

/-- The blocks of a legal chunk, written back after a transform, keep BUF canonical. -/
theorem writeBlocks_runBlocks_wf {f : Chain → Block → Block × Chain} {c : Chain} {m m' : Memory} {n : Nat}
    {Bs : List Block} (hn : n ≤ Config.chunk) (hB : m'.readBlocks 0 (n / Config.block) = .ok Bs) (hm : m.wf) :
    (m.writeBlocks 0 (runBlocks f c Bs).1).wf := by
  have hlen : Bs.length = n / 16 := (Memory.readBlocks_eq_ok.mp hB).1
  refine Memory.writeBlocks_wf hm ?_
  simp only [runBlocks_length, hlen, Config.chunk] at *
  omega

theorem nextn_work (len : BitVec 13) (s : State) (hl : lenPrefix len = true) :
    Work s (.nextn len) { s with
      buf := s.buf.writeBytes 0 (drawN len.toNat s.curr).1.toList
      curr := (drawN len.toNat s.curr).2
      result := (drawN len.toNat s.curr).1.toList.getLast?.getD s.result } := by
  refine .nextn len _ _ _ (fun hm => Memory.writeBytes_wf hm ?_) ?_ ?_
  · simpa using lenPrefix_le hl
  · exact drawN_snd len.toNat s.curr ▸ drawn_iterate len.toNat s.curr
  · rintro rfl
    rfl

/-- Everything a completed command can have done (R86, R300): SRST resets the registers, and any other command
completes with some code what `Work` allows it. -/
theorem exec_cases {i : Instr} {s t : State} (h : exec i s = .next t) :
    i = .srst ∧ t = complete .ok (softReset s) ∨ ∃ c u, t = complete c u ∧ Work s i u := by
  cases i with
  | nop => exact .inr ⟨_, _, finish_eq_next.mp h, .idle _⟩
  | srst => exact .inl ⟨rfl, finish_eq_next.mp h⟩
  | hclr => exact .inr ⟨_, _, finish_eq_next.mp h, .hclr _⟩
  | hbyte c => exact .inr ⟨_, _, finish_eq_next.mp h, .hbyte c _⟩
  | hbuf len =>
    obtain ⟨-, ht⟩ | ⟨-, v, -, ht⟩ := execHbuf_eq_next.mp h
    · exact .inr ⟨_, _, ht, .idle _⟩
    · exact .inr ⟨_, _, ht, .hbuf len _⟩
  | seedh => exact .inr ⟨_, _, finish_eq_next.mp h, .seedh _⟩
  | seedr => exact .inr ⟨_, _, finish_eq_next.mp h, .seedr _⟩
  | next => exact .inr ⟨_, _, finish_eq_next.mp h, .next _ _ (.inl (lcgStep_lt _))⟩
  | nextn len =>
    obtain ⟨-, ht⟩ | ⟨hl, ht⟩ := execNextn_eq_next.mp h
    · exact .inr ⟨_, _, ht, .idle _⟩
    · exact .inr ⟨_, _, ht, nextn_work len s hl⟩
  | ksgen => exact .inr ⟨_, _, finish_eq_next.mp h, .ksgen _ _ (.inl (drawBlock_snd_lt _))⟩
  | ksld b =>
    obtain ⟨B, -, ht⟩ := execKsld_eq_next.mp h
    exact .inr ⟨_, _, ht, .ksld b B⟩
  | sha b =>
    obtain ⟨B, -, ht⟩ := execSha_eq_next.mp h
    exact .inr ⟨_, _, ht, .sha b _ fun hm => Memory.writeBlock_wf hm (blockAddr_le b)⟩
  | shd b =>
    obtain ⟨B, -, ht⟩ := execShd_eq_next.mp h
    exact .inr ⟨_, _, ht, .shd b _ fun hm => Memory.writeBlock_wf hm (blockAddr_le b)⟩
  | pvld b =>
    obtain ⟨B, -, ht⟩ := execPvld_eq_next.mp h
    exact .inr ⟨_, _, ht, .pvld b B⟩
  | eblk b =>
    obtain ⟨B, -, ht⟩ := stepBlock_eq_next.mp h
    exact .inr ⟨_, _, ht, .eblk b _ _ (fun hm => Memory.writeBlock_wf hm (blockAddr_le b))
      (drawn_stepBlock encStep_curr s B)⟩
  | dblk b =>
    obtain ⟨B, -, ht⟩ := stepBlock_eq_next.mp h
    exact .inr ⟨_, _, ht, .dblk b _ _ (fun hm => Memory.writeBlock_wf hm (blockAddr_le b))
      (drawn_stepBlock decStep_curr s B)⟩
  | eblks b =>
    obtain ⟨B, -, ht⟩ := storedBlock_eq_next.mp h
    exact .inr ⟨_, _, ht, .eblks b _ _ fun hm => Memory.writeBlock_wf hm (blockAddr_le b)⟩
  | dblks b =>
    obtain ⟨B, -, ht⟩ := storedBlock_eq_next.mp h
    exact .inr ⟨_, _, ht, .dblks b _ _ fun hm => Memory.writeBlock_wf hm (blockAddr_le b)⟩
  | cinit =>
    obtain ⟨-, ht⟩ | ⟨-, ht⟩ := execCinit_eq_next.mp h
    · exact .inr ⟨_, _, ht, .idle _⟩
    · exact .inr ⟨_, _, ht, .cinit _ _ (drawBlock_snd_lt _)⟩
  | pad len =>
    obtain ⟨-, ht⟩ | ⟨hl, ht⟩ := execPad_eq_next.mp h
    · exact .inr ⟨_, _, ht, .idle _⟩
    · have hle := lenPartial_padded_le hl
      exact .inr ⟨_, _, ht, .pad len _ _ (fun hm => Memory.writeBytes_wf hm (by simpa using hle))
        ((Nat.mod_le _ _).trans hle)⟩
  | unpad len =>
    obtain ⟨-, ht⟩ | ⟨hl, h⟩ := execUnpad_eq_next.mp h
    · exact .inr ⟨_, _, ht, .idle _⟩
    · obtain ⟨c, o, -, ht, ho⟩ := unpadTail_shape h
      exact .inr ⟨c, _, ht, .unpad len o (ho.trans (lenBlocks_le hl))⟩
  | echnk len final =>
    obtain ⟨-, ht⟩ | ⟨hl, ⟨-, ht⟩ | ⟨hp, Bs, hB, ht⟩⟩ := execEchnk_eq_next.mp h
    · exact .inr ⟨_, _, ht, .idle _⟩
    · exact .inr ⟨_, _, ht, .idle _⟩
    · have hle := paddedLen_le hl
      exact .inr ⟨_, _, ht, .echnk len final _ _ _ hp
        (fun hm => writeBlocks_runBlocks_wf hle hB (paddedBuf_wf hl hm))
        (drawn_runBlocks encStep_curr s Bs) ((Nat.mod_le _ _).trans hle)⟩
  | dchnk len final =>
    obtain ⟨-, ht⟩ | ⟨hl, ⟨-, ht⟩ | ⟨hp, Bs, c, o, hB, -, ho, ht⟩⟩ := execDchnk_shape h
    · exact .inr ⟨_, _, ht, .idle _⟩
    · exact .inr ⟨_, _, ht, .idle _⟩
    · exact .inr ⟨c, _, ht, .dchnk len final _ _ o hp (writeBlocks_runBlocks_wf (lenBlocks_le hl) hB)
        (drawn_runBlocks decStep_curr s Bs) (ho.trans (lenBlocks_le hl))⟩

/-! ## What one step can have done -/

/-- The only word that decodes to SRST (R106). -/
theorem decode_eq_srst {w : Word} (h : decode w = .ok .srst) : w = 1 := by
  obtain ⟨-, hm⟩ := decode_eq_ok.mp h
  calc w = w &&& fixedMask .srst := (BitVec.and_allOnes (x := w)).symm
    _ = 1 := hm

/-- A word that is no command completes with an error code and nothing else (R302, R303). -/
theorem completeWord_of_undecodable {w : Word} {s t : State} (hw : ∀ i, decode w ≠ .ok i)
    (h : completeWord w s = .next t) : ∃ c, t = complete c s := by
  cases hd : decode w with
  | ok i => exact absurd hd (hw i)
  | error e =>
    cases e <;> simp only [completeWord, hd, raiseError_eq_next] at h
    · exact ⟨.badOp, h⟩
    · exact ⟨.rsvd, h⟩

/-- Everything the completion of a latched word can have done: the SRST word resets the registers, and any other
word, a command or not, completes with some code. -/
theorem completeWord_cases {w : Word} {s t : State} (h : completeWord w s = .next t) :
    w = 1 ∧ t = complete .ok (softReset s) ∨ ∃ i c u, t = complete c u ∧ Work s i u := by
  by_cases hd : ∃ i, decode w = .ok i
  · obtain ⟨i, hi⟩ := hd
    rw [completeWord, hi] at h
    obtain ⟨rfl, ht⟩ | ⟨c, u, ht, hw⟩ := exec_cases h
    · exact .inl ⟨decode_eq_srst hi, ht⟩
    · exact .inr ⟨i, c, u, ht, hw⟩
  · obtain ⟨c, ht⟩ := completeWord_of_undecodable (not_exists.mp hd) h
    exact .inr ⟨.nop, c, s, ht, .idle _⟩

/-- The step takes the next event, the engine's where none waits (R361). -/
theorem exists_event_of_step (s : State) :
    ∃ e, (e = .engine ∧ s.events = [] ∨ s.events.head? = some e) ∧ step s = takeEvent e (afterEvent s) := by
  cases h : s.events with
  | nil =>
    have ha : afterEvent s = s := by cases s; cases h; rfl
    exact ⟨.engine, .inl ⟨rfl, rfl⟩, by rw [ha]; exact step_of_nil h⟩
  | cons e rest => exact ⟨e, .inr rfl, by rw [step_of_cons h, afterEvent, h, List.tail_cons]⟩

/-- Releasing an asserted reset gives every register its value after a hardware reset (R340). -/
theorem releaseReset_of_asserted {s : State} (h : s.resetAsserted = true) :
    releaseReset s = { hardwareReset s with resetAsserted := false } := if_pos h

/-- The step at a latched word is its completion (R86). -/
theorem step_of_completes {s : State} {w : Word} (h : completes s w) : step s = completeWord w (afterEvent s) := by
  obtain ⟨hr, hl, ht⟩ := h
  obtain ⟨e, he, hs⟩ := exists_event_of_step s
  have : e = .engine := by
    rcases he with ⟨rfl, -⟩ | he
    · rfl
    · simpa [he, eq_comm] using ht.resolve_left (by rintro h; simp [h] at he)
  simp [hs, this, takeEvent, engineStep, hr, hl]

/-- What one step can have done, one constructor each: `Happens s t` says that the event next in `s` made `t` of it.
The premises say which event it was, and when. -/
inductive Happens (s : State) : State → Prop
  /-- The latched SRST word completes. -/
  | srst (hc : completes s 1) : Happens s (complete .ok (softReset (afterEvent s)))
  /-- Any other latched word completes. -/
  | completion {w : Word} {i : Instr} {c : ErrCode} {u : State} (hc : completes s w) (hw : Work (afterEvent s) i u) :
      Happens s (complete c u)
  /-- The host may get an answer, and no register of SB-CORE changes: an idle engine, a read, a write that is
  illegal or ignored, or the release of a reset input that is not asserted. A recorded fault stays (R308). -/
  | answer (f : Option Fault) (r : List Response) (d : Nat) (hf : ∀ x, s.fault = some x → f = some x) :
      Happens s { afterEvent s with fault := f, responses := r, draws := d }
  /-- A write of CMD, SEED or BUF is dropped, because BUSY = 1 (R38). -/
  | dropped (off n : Nat) (v : Word) (he : s.events.head? = some (.write off n v)) (hl : legalAccess off n = true)
      (hr : s.resetAsserted = false) (hb : s.busy = true) (hd : droppedBusy off = true) :
      Happens s (respond .done { afterEvent s with ovr := true })
  /-- A command word is accepted (R34). -/
  | accepted (w : Word) (he : s.events.head? = some (.write 0x004 4 w)) (hr : s.resetAsserted = false) :
      Happens s (respond .done (acceptCommand w (afterEvent s)))
  /-- A half of SEED is written (R43). -/
  | seedWrite (x : DWord) : Happens s (respond .done { afterEvent s with seed := x })
  /-- Bytes of BUF are written (R79). -/
  | bufWrite (m : Memory) (hm : s.buf.wf → m.wf) : Happens s (respond .done { afterEvent s with buf := m })
  /-- The hardware reset input is asserted (R340). -/
  | assertReset (he : s.events.head? = some .assertReset) : Happens s (assertReset (afterEvent s))
  /-- The hardware reset input is released (R340). -/
  | releaseReset (he : s.events.head? = some .releaseReset) (hr : s.resetAsserted = true) :
      Happens s { hardwareReset (afterEvent s) with resetAsserted := false }

/-- A legal access to a register offset has four bytes (R73). -/
theorem size_of_legalAccess {off n : Nat} (h : legalAccess off n = true) (ho : off < Config.bufBase) : n = 4 := by
  simp only [legalAccess, ho, if_true, Bool.and_eq_true, beq_iff_eq] at h
  exact h.1

/-- A legal access to BUF stays inside it (R73). -/
theorem end_of_legalAccess {off n : Nat} (h : legalAccess off n = true) (ho : Config.bufBase ≤ off) :
    off - Config.bufBase + n ≤ Config.chunk := by
  simp only [legalAccess, Nat.not_lt.mpr ho, if_false, Bool.and_eq_true, Bool.or_eq_true, beq_iff_eq,
    decide_eq_true_eq] at h
  obtain ⟨⟨hw, (rfl | rfl) | rfl⟩, hm⟩ := h <;> simp only [Config.bufBase, Config.windowSize, Config.chunk] at * <;>
    omega

theorem leBytes_length (n : Nat) (v : Word) : (leBytes n v).length = n := by simp [leBytes]

/-- A host write is one of these. -/
theorem happens_of_hostWrite {off n : Nat} {v : Word} {s t : State}
    (he : s.events.head? = some (.write off n v)) (h : hostWrite off n v (afterEvent s) = .next t) : Happens s t := by
  obtain ⟨t', ht', hc⟩ := hostWrite_cases off n v (afterEvent s)
  obtain rfl : t' = t := by simpa [ht'] using h
  rcases hc with ⟨-, rfl⟩ | ⟨-, -, rfl⟩ | ⟨hl, hr, hb, rfl⟩ | ⟨hl, hr, hb, ho, rfl⟩ | ⟨hl, hr, hb, ho, rfl⟩
  · exact .answer _ _ _ fun _ hx => by simp [hx]
  · exact .answer _ _ _ fun _ hx => hx
  · cases hd : droppedBusy off with
    | true => exact .dropped off n v he hl hr hb hd
    | false => exact .answer _ _ _ fun _ hx => hx
  · obtain ⟨e, rfl⟩ | ⟨⟨x, e⟩, -⟩ | ⟨e, -⟩ := regWrite_cases off v (afterEvent s) <;> rw [e]
    · obtain rfl := size_of_legalAccess hl ho
      exact .accepted v he hr
    · exact .seedWrite x
    · exact .answer _ _ _ fun _ hx => hx
  · exact .bufWrite _ fun hm => Memory.writeBytes_wf hm (by
      rw [leBytes_length]
      exact end_of_legalAccess hl ho)

/-- A host read only gets an answer. -/
theorem happens_of_hostRead {off n : Nat} {s t : State} (h : hostRead off n (afterEvent s) = .next t) :
    Happens s t := by
  obtain ⟨-, rfl⟩ | ⟨-, -, rfl⟩ | ⟨-, -, v, rfl⟩ := hostRead_eq_next h
  · exact .answer _ _ _ fun _ hx => by simp [hx]
  · exact .answer _ _ _ fun _ hx => hx
  · exact .answer _ _ _ fun _ hx => hx

/-- Everything one step can have done. -/
theorem step_cases {s t : State} (h : step s = .next t) : Happens s t := by
  obtain ⟨e, he, hs⟩ := exists_event_of_step s
  rcases takeEvent_eq_next (hs ▸ h) with ⟨w, rfl, hr, hl, hc⟩ | ⟨-, -, rfl⟩ | ⟨off, n, rfl, hc⟩ |
      ⟨off, n, v, rfl, hc⟩ | ⟨rfl, rfl⟩ | ⟨rfl, rfl⟩
  · have hw : completes s w := ⟨hr, hl, he.imp_left And.right⟩
    obtain ⟨rfl, rfl⟩ | ⟨i, c, u, rfl, hu⟩ := completeWord_cases hc
    · exact .srst hw
    · exact .completion hw hu
  · exact .answer _ _ _ fun _ hx => hx
  · exact happens_of_hostRead hc
  · exact happens_of_hostWrite (he.resolve_left (by simp)) hc
  · exact .assertReset (he.resolve_left (by simp))
  · unfold releaseReset
    split
    · next hr => exact .releaseReset (he.resolve_left (by simp)) hr
    · exact .answer _ _ _ fun _ hx => hx

/-! ## Host accesses -/

/-- A step with an event put first is that event. -/
theorem step_events_cons (s : State) (e : Event) (rest : List Event) :
    step { s with events := e :: rest } = takeEvent e { s with events := rest } := rfl

/-- The offsets whose write is dropped while BUSY = 1, as R38 lists them. -/
theorem droppedBusy_iff {off : Nat} :
    droppedBusy off = true ↔ off = 0x004 ∨ off = 0x018 ∨ off = 0x01C ∨ 0x1000 ≤ off := by
  simp [droppedBusy, or_assoc]

/-- An aligned 4-byte access to a register offset is legal (R73). -/
theorem legalAccess_register {off : Nat} (ha : off % 4 = 0) (ho : off < Config.bufBase) :
    legalAccess off 4 = true := by
  simp [legalAccess, ha, ho]

/-- A register read answers what the map gives, unless BUSY = 1 makes it unspecified (R77, R82). -/
theorem readsAs_regRead {s : State} {off : Nat} (hr : s.resetAsserted = false)
    (hb : s.busy = false ∨ readableBusy off = true) (ha : off % 4 = 0) (ho : off < Config.bufBase) :
    readsAs s off (regRead off s) := by
  intro rest
  have hfree : (s.busy && !readableBusy off) = false := by obtain h | h := hb <;> simp [h]
  have hmap : regRead off { s with events := rest } = regRead off s := by unfold regRead; split <;> rfl
  rw [step_events_cons, takeEvent, hostRead, if_neg (by simp [legalAccess_register ha ho]), if_neg (by simp [hr]),
    if_neg (by simp [hfree]), if_pos ho, hmap]
  rfl

/-- With BUSY = 0 an aligned register write does what the map says (R78). -/
theorem writesTo_regWrite {s : State} {off : Nat} (hs : quiet s) (ha : off % 4 = 0) (ho : off < Config.bufBase)
    (v : Word) : writesTo s off v (regWrite off v s) := by
  intro rest
  obtain ⟨hb, hr⟩ := hs
  have hmap : respond .done (regWrite off v { s with events := rest }) =
      { regWrite off v s with events := rest, responses := .done :: s.responses } := by
    unfold regWrite; split <;> rfl
  rw [step_events_cons, takeEvent, hostWrite, if_neg (by simp [legalAccess_register ha ho]), if_neg (by simp [hr]),
    if_neg (by simp [hb]), if_pos ho, hmap]

/-- A legal write to CMD, SEED or BUF with BUSY = 1 is dropped, and shows in OVR alone (R38, R82). -/
theorem step_write_dropped {s : State} {off n : Nat} {v : Word} {rest : List Event} (hb : s.busy = true)
    (hr : s.resetAsserted = false) (hl : legalAccess off n = true) (hd : droppedBusy off = true) :
    step { s with events := .write off n v :: rest } =
      .next { s with events := rest, ovr := true, responses := .done :: s.responses } := by
  rw [step_events_cons, takeEvent, hostWrite, if_neg (by simp [hl]), if_neg (by simp [hr]), if_pos hb, if_pos hd]
  rfl

/-- The reserved register offsets read 0 (R77). -/
theorem regRead_reserved {off : Nat} (s : State) (h : off = 0x014 ∨ 0x050 ≤ off) : regRead off s = 0 := by
  unfold regRead
  split
  case h_19 => rfl
  all_goals omega

/-- R75: byte `j` of a word put together from bytes is the `j`-th of them. -/
theorem leWord_byte {bs : List Byte} {j : Nat} (hj : j < bs.length) (h4 : j < 4) :
    (leWord bs).extractLsb' (8 * j) 8 = bs[j] := by
  induction bs generalizing j with
  | nil => simp at hj
  | cons b bs ih =>
    apply BitVec.eq_of_getLsbD_eq
    intro i hi
    cases j with
    | zero => simp [leWord, hi, show i < 32 by omega]
    | succ j =>
      have hj : j < bs.length := by simpa using hj
      have htail : (leWord bs).getLsbD (8 * j + i) = bs[j].getLsbD i := by
        rw [← ih hj (by omega), BitVec.getLsbD_extractLsb', decide_eq_true hi, Bool.true_and]
      have hhead : b.getLsbD (8 * (j + 1) + i) = false := BitVec.getLsbD_of_ge _ _ (by omega)
      rw [BitVec.getLsbD_extractLsb', leWord, BitVec.getLsbD_or, BitVec.getLsbD_shiftLeft, BitVec.getLsbD_setWidth,
        hhead, show 8 * (j + 1) + i - 8 = 8 * j + i by omega, htail]
      simp [hi, show 8 * (j + 1) + i < 32 by omega, show ¬ 8 * (j + 1) + i < 8 by omega]

/-- R76: byte `j` of word `k` of a block is byte `4k + j` of the block. -/
theorem blockWord_byte (B : Block) (k j : Fin 4) :
    (blockWord B k).extractLsb' (8 * j) 8 = B[4 * k.val + j.val] := by
  rw [blockWord, leWord_byte j.isLt j.isLt]
  fin_cases j <;> rfl

/-- PREV is the words 0x030 to 0x03C of the map (R31). -/
theorem regRead_prev (s : State) (k : Fin 4) : regRead (0x030 + 4 * k) s = blockWord s.prev k := by
  fin_cases k <;> rfl

/-- KS is the words 0x040 to 0x04C of the map (R31). -/
theorem regRead_ks (s : State) (k : Fin 4) : regRead (0x040 + 4 * k) s = blockWord s.ks k := by
  fin_cases k <;> rfl

/-- R76: the halves of a value put together from its HI and LO words. -/
theorem joinWords_hi (hi lo : Word) : (joinWords hi lo).extractLsb' 32 32 = hi := by
  apply BitVec.eq_of_getLsbD_eq
  intro i h
  simp [joinWords, h, show 32 + i < 64 by omega]

theorem joinWords_lo (hi lo : Word) : (joinWords hi lo).extractLsb' 0 32 = lo := by
  apply BitVec.eq_of_getLsbD_eq
  intro i h
  simp [joinWords, h, show i < 64 by omega]

end Sys2Proof.Machine

namespace Sys2Proof.Machine

open Sys2Proof.Certificates Sys2Proof.Safety

/-! ## The invariant -/

/-- The part of the invariant that the work of a command could break: BUF, OUT_LEN and CURR. The rest is about
the fields a completion writes. -/
structure RangesOk (s : State) : Prop where
  bufWf : s.buf.wf
  outLenLe : s.outLen.toNat ≤ Config.chunk
  currLt : s.phase = .chained ∨ s.phase = .done → s.curr < Config.lcgM

/-- A completion establishes the rest of the invariant. -/
theorem complete_inv {c : ErrCode} {u : State} (h : RangesOk u) : Inv (complete c u) where
  bufWf := h.bufWf
  latchBusy := rfl
  outLenLe := h.outLenLe
  errLe := by cases c <;> simp [ErrCode.code]
  errErrs := by cases c <;> simp [ErrCode.code]
  currLt := h.currLt
  resetIdle _ := rfl

theorem Drawn.lt {c c' : DWord} (hd : Drawn c c') (hc : c < Config.lcgM) : c' < Config.lcgM :=
  hd.elim id fun h => h ▸ hc

/-- No command takes BUF, OUT_LEN or CURR out of range. -/
theorem Work.rangesOk {s u : State} {i : Instr} (hw : Work s i u) (hs : RangesOk s) : RangesOk u := by
  cases hw with
  | idle | hclr | hbyte | hbuf | ksld | pvld => exact { hs with }
  | seedh | seedr => exact { hs with currLt := by simp }
  | next _ _ hc | ksgen _ _ hc => exact { hs with currLt := fun hp => hc.lt (hs.currLt hp) }
  | nextn _ _ _ _ hm hc => exact { hs with bufWf := hm hs.bufWf, currLt := fun hp => hc.lt (hs.currLt hp) }
  | sha _ _ hm | shd _ _ hm | eblks _ _ _ hm | dblks _ _ _ hm => exact { hs with bufWf := hm hs.bufWf }
  | eblk _ _ _ hm hc | dblk _ _ _ hm hc =>
    exact { hs with bufWf := hm hs.bufWf, currLt := fun hp => hc.lt (hs.currLt hp) }
  | cinit _ _ hc => exact { hs with currLt := fun _ => hc }
  | pad _ _ _ hm ho => exact { hs with bufWf := hm hs.bufWf, outLenLe := ho }
  | unpad _ _ ho => exact { hs with outLenLe := ho }
  | echnk _ _ _ _ _ hp hm hc ho | dchnk _ _ _ _ _ hp hm hc ho =>
    exact { bufWf := hm hs.bufWf, outLenLe := ho, currLt := fun _ => hc.lt (hs.currLt (.inl hp)) }

/-- Settles O60, clause by clause. -/
theorem invariantHoldsAtReset : Obligations.InvariantHoldsAtReset where
  bufWf := State.reset_buf_wf
  latchBusy := rfl
  outLenLe := Nat.zero_le _
  errLe := Nat.zero_le _
  errErrs h := absurd rfl h
  currLt h := by simp [State.reset] at h
  resetIdle _ := rfl

/-- Settles O59, by the cases of a step: a completion leaves what `complete_inv` needs, and every other event
writes at most one of the fields the invariant speaks of. -/
theorem everyStepKeepsTheInvariant : Obligations.EveryStepKeepsTheInvariant := by
  intro s t hs h
  have hr : RangesOk (afterEvent s) := ⟨hs.bufWf, hs.outLenLe, hs.currLt⟩
  cases step_cases h with
  | srst => exact complete_inv ⟨hs.bufWf, Nat.zero_le _, by simp⟩
  | completion _ hw => exact complete_inv (hw.rangesOk hr)
  | answer | dropped | seedWrite => exact { hs with }
  | accepted w _ hn => exact { hs with latchBusy := rfl, resetIdle := by simp [hn] }
  | bufWrite m hm => exact { hs with bufWf := hm hs.bufWf }
  | assertReset => exact { hs with latchBusy := rfl, resetIdle := fun _ => rfl }
  | releaseReset => exact { invariantHoldsAtReset with resetIdle := fun _ => rfl }

/-! ## STATUS -/

/-- The work of a command leaves ERRS to its completion (R37). -/
theorem Work.errs {s u : State} {i : Instr} (hw : Work s i u) : u.errs = s.errs := by cases hw <;> rfl

/-- No command but SRST touches OVR (R38). -/
theorem Work.ovr {s u : State} {i : Instr} (hw : Work s i u) : u.ovr = s.ovr := by cases hw <;> rfl

/-- A nonzero code sets ERRS (R37, R300). -/
theorem complete_errs_of_err {c : ErrCode} {u : State} (h : (complete c u).err ≠ 0) :
    (complete c u).errs = true := by
  cases c with
  | ok => exact absurd rfl h
  | badOp | rsvd | len | seq | pad => simp

/-- Settles O12: of the cases of a step, only SRST and the release of reset clear ERRS. -/
theorem errsIsStickyUntilReset : Obligations.ErrsIsStickyUntilReset := by
  intro s t h
  refine ⟨fun w hc he => ?_, fun hs ht => ?_⟩
  · rw [step_of_completes hc] at h
    obtain ⟨-, rfl⟩ | ⟨_, _, _, rfl, -⟩ := completeWord_cases h <;> exact complete_errs_of_err he
  · cases step_cases h with
    | srst hc => exact .inl hc
    | releaseReset he hr => exact .inr ⟨hr, he⟩
    | completion _ hw => simp [hw.errs, hs] at ht
    | answer | dropped | accepted | seedWrite | bufWrite | assertReset => simp [hs] at ht

/-- Settles O13: of the cases of a step, only a dropped write sets OVR, and only SRST and the release of reset
clear it. -/
theorem ovrIsSetByDroppedWritesAndSticky : Obligations.OvrIsSetByDroppedWritesAndSticky := by
  refine ⟨fun s off n v rest hb hr hl ho => ?_, fun s t h hs ht => ?_, fun s t h hs ht => ?_⟩
  · exact step_write_dropped hb hr hl (droppedBusy_iff.mpr ho)
  · cases step_cases h with
    | srst hc => exact .inl hc
    | releaseReset he hr => exact .inr ⟨hr, he⟩
    | completion _ hw => simp [hw.ovr, hs] at ht
    | dropped => simp at ht
    | answer | accepted | seedWrite | bufWrite | assertReset => simp [hs] at ht
  · cases step_cases h with
    | dropped off n v he hl hr hb hd => exact ⟨hb, hr, off, n, v, he, hl, droppedBusy_iff.mp hd⟩
    | completion _ hw => simp [hw.ovr, hs] at ht
    | srst | releaseReset => simp at ht
    | answer | accepted | seedWrite | bufWrite | assertReset => simp [hs] at ht

/-- Settles O14, by the cases of a step. -/
theorem busyRisesAndFallsOnlyAsStated : Obligations.BusyRisesAndFallsOnlyAsStated := by
  intro s t h
  refine ⟨fun hs ht => ?_, fun hs ht => ?_⟩
  · cases step_cases h with
    | accepted w he hr => exact ⟨w, he, rfl, hr⟩
    | srst | completion | assertReset | releaseReset => simp at ht
    | answer | dropped | seedWrite | bufWrite => simp [hs] at ht
  · cases step_cases h with
    | srst hc | completion hc => exact .inl ⟨_, hc⟩
    | assertReset he => exact .inr (.inl he)
    | releaseReset he hr => exact .inr (.inr ⟨hr, he⟩)
    | accepted => simp at ht
    | answer | dropped | seedWrite | bufWrite => simp [hs] at ht

/-- Settles O47, bit by bit. -/
theorem statusWordLayout : Obligations.StatusWordLayout := by
  intro s
  refine ⟨?_, ?_, ?_, ?_, ?_, ?_, ?_⟩
  · simp [statusWord]
  · simp [statusWord]
  · simp [statusWord]
  · simp [statusWord]
  · apply BitVec.eq_of_getLsbD_eq
    intro i hi
    interval_cases i <;> simp [statusWord]
  · apply BitVec.eq_of_getLsbD_eq
    intro i hi
    cases hp : s.phase <;> interval_cases i <;> simp [statusWord, hp, Phase.code]
  · apply BitVec.eq_of_getLsbD_eq
    intro i hi
    interval_cases i <;> simp [statusWord]

/-! ## The registers of a command -/

/-- Settles O16: `Work` lists what each command may have rewritten, and the completion writes STATUS only. -/
theorem registersAreWrittenOnlyByTheirCommands : Obligations.RegistersAreWrittenOnlyByTheirCommands := by
  intro i s t h hi
  obtain ⟨rfl, -⟩ | ⟨c, u, rfl, hw⟩ := exec_cases h
  · exact absurd rfl hi
  · cases hw with
    | nextn len m c' r hm hc hr =>
      have hres : (∀ n, Instr.nextn len ≠ .nextn n ∨ n = 0) → r = s.result := fun hn =>
        hr ((hn len).resolve_left fun hne => hne rfl)
      simpa using hres
    | _ => simp

/-! ## PHASE -/

/-- No command outside the session table moves PHASE (R44). -/
theorem Work.phase {s u : State} {i : Instr} (hw : Work s i u)
    (hi : i ≠ .seedr ∧ i ≠ .seedh ∧ i ≠ .cinit ∧ ∀ n f, i ≠ .echnk n f ∧ i ≠ .dchnk n f) : u.phase = s.phase := by
  cases hw <;> simp at hi ⊢

/-- ECHNK moves PHASE to DONE where F = 1, and LEN and SEQ leave it where it was (R233). -/
theorem phase_echnk {len : BitVec 13} {final : Bool} {s t : State} (h : exec (.echnk len final) s = .next t) :
    t.phase = if final = true ∧ s.phase = .chained ∧ t.err ≠ 3 then .done else s.phase := by
  obtain ⟨-, rfl⟩ | ⟨-, ⟨hp, rfl⟩ | ⟨hp, Bs, -, rfl⟩⟩ := execEchnk_eq_next.mp h
  · simp [ErrCode.code]
  · simp [hp]
  · simp [hp, ErrCode.code]

/-- DCHNK moves PHASE to DONE where F = 1, with the PAD error or without, and LEN and SEQ leave it where it was
(R234). -/
theorem phase_dchnk {len : BitVec 13} {final : Bool} {s t : State} (h : exec (.dchnk len final) s = .next t) :
    t.phase = if final = true ∧ s.phase = .chained ∧ t.err ≠ 3 then .done else s.phase := by
  obtain ⟨-, rfl⟩ | ⟨-, ⟨hp, rfl⟩ | ⟨hp, Bs, c, o, -, hc, -, rfl⟩⟩ := execDchnk_shape h
  · simp [ErrCode.code]
  · simp [hp]
  · obtain rfl | rfl := hc <;> simp [hp, ErrCode.code]

/-- CINIT moves PHASE from SEEDED to CHAINED, and SEQ leaves it where it was (R221). -/
theorem phase_cinit {s t : State} (h : exec .cinit s = .next t) :
    t.phase = if s.phase = .seeded then .chained else s.phase := by
  obtain ⟨hp, rfl⟩ | ⟨hp, rfl⟩ := execCinit_eq_next.mp h <;> simp [hp]

/-- Settles O15: SRST, SEEDR, SEEDH, CINIT and the chunk commands each have their row of the table, and `Work.phase`
is the row of every other command. -/
theorem phaseFollowsTheSessionTable : Obligations.PhaseFollowsTheSessionTable := by
  refine ⟨fun i s t h => ?_, fun s t w hc hw h => ?_, fun s rest hr => ⟨_, rfl, ?_⟩⟩
  · cases i with
    | cinit => exact phase_cinit h
    | echnk len final => exact phase_echnk h
    | dchnk len final => exact phase_dchnk h
    | srst | seedr | seedh => rw [finish_eq_next.mp h]; rfl
    | _ =>
      obtain ⟨hi, -⟩ | ⟨c, u, rfl, hw⟩ := exec_cases h
      · cases hi
      · exact hw.phase (by simp)
  · rw [step_of_completes hc] at h
    obtain ⟨c, rfl⟩ := completeWord_of_undecodable hw h
    rfl
  · exact congrArg State.phase (releaseReset_of_asserted (s := { s with events := rest }) hr)

/-! ## The register window and reset -/

/-- Settles O46: every offset of the map by `readsAs_regRead`. -/
theorem registerReadsFollowTheMap : Obligations.RegisterReadsFollowTheMap := by
  intro s ⟨hb, hr⟩
  have key : ∀ off, off % 4 = 0 → off < 0x1000 → readsAs s off (regRead off s) :=
    fun off => readsAs_regRead hr (.inl hb)
  refine ⟨key 0x000 rfl (by decide), key 0x004 rfl (by decide), key 0x008 rfl (by decide),
    key 0x00C rfl (by decide), key 0x010 rfl (by decide), key 0x018 rfl (by decide), key 0x01C rfl (by decide),
    key 0x020 rfl (by decide), key 0x024 rfl (by decide), key 0x028 rfl (by decide), key 0x02C rfl (by decide),
    fun k => ⟨blockWord s.prev k, blockWord s.ks k, ?_, ?_, fun j => ⟨blockWord_byte _ k j, blockWord_byte _ k j⟩⟩,
    fun off ha ho => ?_⟩
  · exact regRead_prev s k ▸ key _ (by omega) (by omega)
  · exact regRead_ks s k ▸ key _ (by omega) (by omega)
  · exact regRead_reserved s (ho.imp_right And.left) ▸ key off ha (by omega)

/-- Settles O50: the halves of `joinWords` are its words. -/
theorem seedWritesChangeSeedOnly : Obligations.SeedWritesChangeSeedOnly := fun s v hs =>
  ⟨joinWords (s.seed.extractLsb' 32 32) v, joinWords v (s.seed.extractLsb' 0 32),
    writesTo_regWrite (off := 0x018) hs rfl (by decide) v, writesTo_regWrite (off := 0x01C) hs rfl (by decide) v,
    joinWords_lo _ _, joinWords_hi _ _, joinWords_hi _ _, joinWords_lo _ _⟩

/-- Settles O49: acceptance is the CMD row of `regWrite`, and the drop is `step_write_dropped`. -/
theorem cmdWritesAreAcceptedOrDropped : Obligations.CmdWritesAreAcceptedOrDropped := fun s w hr =>
  ⟨fun hb => writesTo_regWrite (off := 0x004) ⟨hb, hr⟩ rfl (by decide) w,
    fun hb _ => step_write_dropped hb hr (by decide) (by decide),
    readsAs_regRead (off := 0x004) hr (.inr (by decide)) rfl (by decide)⟩

/-- Settles O56, field by field. -/
theorem resetHoldsTheStatedValues : Obligations.ResetHoldsTheStatedValues := by
  refine ⟨rfl, rfl, rfl, fun i => ?_, rfl, rfl, rfl, rfl, fun _ => rfl,
    readsAs_regRead (off := 0x000) rfl (.inl rfl) rfl (by decide)⟩
  simp [State.reset, zeroBlock]

end Sys2Proof.Machine

/-!
SUPPORT and PROOFS for spec/20_memory.md. First what a stretch of BUF writes leaves alone (`StoresIn`), then what a
host access of each kind does, each said once; then the statements about BUF, the host port and the completion step.
-/

namespace Sys2Proof.Machine

open Sys2Proof.Certificates

/-! ## What a command stores -/

/-- `m'` is `m` with bytes stored in the range `r` (first address and how many): every other byte reads as before,
and no written mark is lost (R50, R84). -/
structure StoresIn (r : Nat × Nat) (m m' : Memory) : Prop where
  same : sameOutside m m' r.1 r.2
  marks : ∀ x, (m.read x).isSome = true → (m'.read x).isSome = true

theorem StoresIn.refl (r : Nat × Nat) (m : Memory) : StoresIn r m m := ⟨fun _ _ => rfl, fun _ => id⟩

theorem StoresIn.trans {r : Nat × Nat} {m m' m'' : Memory} (h : StoresIn r m m') (h' : StoresIn r m' m'') :
    StoresIn r m m'' :=
  ⟨fun x hx => (h'.same x hx).trans (h.same x hx), fun x hx => h'.marks x (h.marks x hx)⟩

theorem storesIn_writeBytes {a : Nat} {bs : List Byte} {r : Nat × Nat} (m : Memory) (ha : r.1 ≤ a)
    (hn : a + bs.length ≤ r.1 + r.2) : StoresIn r m (m.writeBytes a bs) :=
  ⟨fun x _ => m.read_writeBytes_outside a x bs (by omega), fun _ => Memory.isSome_writeBytes⟩

theorem storesIn_writeBlock (b : BitVec 8) (m : Memory) (B : Block) :
    StoresIn (16 * b.toNat, 16) m (m.writeBlock (blockAddr b) B) :=
  storesIn_writeBytes m le_rfl (by simp [blockAddr])

theorem storesIn_writeBlocks {n : Nat} {Bs : List Block} (m : Memory) (hn : 16 * Bs.length ≤ n) :
    StoresIn (0, n) m (m.writeBlocks 0 Bs) :=
  ⟨fun x _ => m.read_writeBlocks_outside 0 x Bs (by omega), fun _ => Memory.isSome_writeBlocks⟩

/-- The blocks read from the first `n` bytes, transformed and written back, stay in these bytes. -/
theorem storesIn_runBlocks {f : Chain → Block → Block × Chain} {c : Chain} {m m' : Memory} {n : Nat}
    {Bs : List Block} (hB : m'.readBlocks 0 (n / Config.block) = .ok Bs) :
    StoresIn (0, n) m (m.writeBlocks 0 (runBlocks f c Bs).1) := by
  have hlen : Bs.length = n / 16 := (Memory.readBlocks_eq_ok.mp hB).1
  exact storesIn_writeBlocks m (by rw [runBlocks_length]; omega)

/-- The bytes ECHNK stores are its chunk after padding (R233). -/
theorem storeRange_echnk (len : BitVec 13) (final : Bool) :
    storeRange (.echnk len final) = (0, paddedLen len final) := by
  cases final <;> rfl

theorem storesIn_paddedBuf (len : BitVec 13) (final : Bool) (m : Memory) :
    StoresIn (0, paddedLen len final) m (paddedBuf len final m) := by
  cases final with
  | false => exact .refl _ m
  | true => exact storesIn_writeBytes m (Nat.zero_le _) (by simp [paddedLen])

/-- Settles O17: the commands that store are taken one by one, and `Work` lists BUF for no other command. -/
theorem commandsStoreOnlyTheirBytes : Obligations.CommandsStoreOnlyTheirBytes := by
  intro i s t h
  suffices hst : StoresIn (storeRange i) s.buf t.buf from ⟨hst.same, hst.marks⟩
  cases i with
  | nextn len =>
    obtain ⟨-, rfl⟩ | ⟨-, rfl⟩ := execNextn_eq_next.mp h
    · exact .refl _ _
    · exact storesIn_writeBytes _ le_rfl (by simp [storeRange])
  | sha b =>
    obtain ⟨B, -, rfl⟩ := execSha_eq_next.mp h
    simp only [complete_buf]
    exact storesIn_writeBlock b _ _
  | shd b =>
    obtain ⟨B, -, rfl⟩ := execShd_eq_next.mp h
    simp only [complete_buf]
    exact storesIn_writeBlock b _ _
  | eblk b | dblk b =>
    obtain ⟨B, -, rfl⟩ := stepBlock_eq_next.mp h
    simp only [complete_buf]
    exact storesIn_writeBlock b _ _
  | eblks b | dblks b =>
    obtain ⟨B, -, rfl⟩ := storedBlock_eq_next.mp h
    simp only [complete_buf]
    exact storesIn_writeBlock b _ _
  | pad len =>
    obtain ⟨-, rfl⟩ | ⟨-, rfl⟩ := execPad_eq_next.mp h
    · exact .refl _ _
    · exact storesIn_writeBytes _ le_rfl (by simp [storeRange, padCount])
  | echnk len final =>
    rw [storeRange_echnk]
    obtain ⟨-, rfl⟩ | ⟨-, ⟨-, rfl⟩ | ⟨-, Bs, hB, rfl⟩⟩ := execEchnk_eq_next.mp h
    · exact .refl _ _
    · exact .refl _ _
    · exact (storesIn_paddedBuf len final s.buf).trans (storesIn_runBlocks hB)
  | dchnk len final =>
    obtain ⟨-, rfl⟩ | ⟨-, ⟨-, rfl⟩ | ⟨-, Bs, c, o, hB, -, -, rfl⟩⟩ := execDchnk_shape h
    · exact .refl _ _
    · exact .refl _ _
    · exact storesIn_runBlocks hB
  | _ =>
    obtain ⟨-, rfl⟩ | ⟨c, u, rfl, hw⟩ := exec_cases h
    · exact .refl _ _
    · cases hw <;> exact .refl _ _

/-! ## Host accesses of each kind -/

/-- The legal accesses, as R73 and the bounds of the window (R71, R72) list them. -/
theorem legalAccess_iff {off n : Nat} :
    legalAccess off n = true ↔
      off < 0x1000 ∧ n = 4 ∧ off % 4 = 0 ∨
      0x1000 ≤ off ∧ off < 0x2000 ∧ (n = 1 ∨ n = 2 ∨ n = 4) ∧ off % n = 0 := by
  by_cases ho : off < 0x1000
  · simp [legalAccess, ho]
  · simp [legalAccess, ho, Nat.le_of_not_lt ho, or_assoc, and_assoc]

/-- A naturally aligned access inside BUF is legal (R73). -/
theorem legalAccess_buf {a n : Nat} (hn : n = 1 ∨ n = 2 ∨ n = 4) (ha : a % n = 0) (hle : a + n ≤ 4096) :
    legalAccess (0x1000 + a) n = true := by
  refine legalAccess_iff.mpr (.inr ⟨by omega, by omega, hn, ?_⟩)
  obtain rfl | rfl | rfl := hn <;> omega

/-- A legal write with BUSY = 1 to an offset that R38 does not list is ignored (R82). -/
theorem step_write_ignored {s : State} {off n : Nat} {v : Word} {rest : List Event} (hb : s.busy = true)
    (hr : s.resetAsserted = false) (hl : legalAccess off n = true) (hd : droppedBusy off = false) :
    step { s with events := .write off n v :: rest } =
      .next { s with events := rest, responses := .done :: s.responses } := by
  rw [step_events_cons, takeEvent, hostWrite, if_neg (by simp [hl]), if_neg (by simp [hr]), if_pos hb,
    if_neg (by simp [hd])]
  rfl

/-- With BUSY = 0 a write to a read-only or reserved offset is ignored (R78). -/
theorem regWrite_ignored {off : Nat} (v : Word) (s : State) (h4 : off ≠ 0x004) (h18 : off ≠ 0x018)
    (h1C : off ≠ 0x01C) : regWrite off v s = s := by
  obtain ⟨-, e⟩ | ⟨-, e⟩ | ⟨e, -⟩ := regWrite_cases off v s
  · exact absurd e h4
  · exact absurd e (not_or.mpr ⟨h18, h1C⟩)
  · exact e

/-- A legal BUF write with BUSY = 0 stores the low bytes of the value (R79). -/
theorem step_write_buf {s : State} {a n : Nat} {v : Word} {rest : List Event} (hs : quiet s)
    (hl : legalAccess (0x1000 + a) n = true) :
    step { s with events := .write (0x1000 + a) n v :: rest } =
      .next { s with
        events := rest, buf := s.buf.writeBytes a (leBytes n v), responses := .done :: s.responses } := by
  obtain ⟨hb, hr⟩ := hs
  rw [step_events_cons, takeEvent, hostWrite, if_neg (by simp [hl]), if_neg (by simp [hr]), if_neg (by simp [hb]),
    if_neg (by simp), Nat.add_sub_cancel_left]
  rfl

/-- A legal BUF read with BUSY = 0 answers the bytes read, or stops at an unmarked one (R80). -/
theorem step_read_buf {s : State} {a n : Nat} {rest : List Event} (hs : quiet s)
    (hl : legalAccess (0x1000 + a) n = true) :
    step { s with events := .read (0x1000 + a) n :: rest } =
      reading (s.buf.readVec a n) fun bytes =>
        .next { s with events := rest, responses := .data (leWord bytes.toList) :: s.responses } := by
  obtain ⟨hb, hr⟩ := hs
  rw [step_events_cons, takeEvent, hostRead, if_neg (by simp [hl]), if_neg (by simp [hr]), if_neg (by simp [hb]),
    if_neg (by simp), Nat.add_sub_cancel_left]
  rfl

/-- A legal read with BUSY = 1, of an offset that is not exact then, answers a free value (R82). -/
theorem step_read_free {s : State} {off n : Nat} {rest : List Event} (hb : s.busy = true)
    (hr : s.resetAsserted = false) (hl : legalAccess off n = true) (hf : readableBusy off = false) :
    step { s with events := .read off n :: rest } = .next (freeRead n { s with events := rest }) := by
  rw [step_events_cons, takeEvent, hostRead, if_neg (by simp [hl]), if_neg (by simp [hr]), if_pos (by simp [hb, hf])]

/-- The offsets whose read is exact while BUSY = 1, as R82 lists them. -/
theorem readableBusy_iff {off : Nat} :
    readableBusy off = true ↔
      off = 0x000 ∨ off = 0x004 ∨ off = 0x008 ∨ off = 0x014 ∨ 0x050 ≤ off ∧ off < 0x1000 := by
  simp [readableBusy, or_assoc]

/-- An illegal access, read or write, is a bus error (R74), whatever BUSY and the reset input. -/
theorem step_illegal {s : State} {off n : Nat} (v : Word) {rest : List Event} (hl : legalAccess off n = false) :
    step { s with events := .read off n :: rest } = .next (busError off n { s with events := rest }) ∧
    step { s with events := .write off n v :: rest } = .next (busError off n { s with events := rest }) := by
  simp only [step_events_cons, takeEvent, hostRead, hostWrite, hl, Bool.not_false, if_true, and_self]

/-- A bus error answers the host and records itself where no fault is recorded yet (R308; log 3). -/
theorem busError_eq (off n : Nat) (s : State) :
    busError off n s = { s with
      responses := .busError :: s.responses
      fault := if s.fault = none then some (.busError off n) else s.fault } := by
  have hrec : (s.fault <|> some (.busError off n)) =
      if s.fault = none then some (.busError off n) else s.fault := by
    cases s.fault <;> rfl
  rw [← hrec]
  rfl

/-- Byte `i` of the low bytes of a value (R75). -/
theorem leBytes_getElem {n i : Nat} (v : Word) (h : i < (leBytes n v).length) :
    (leBytes n v)[i] = v.extractLsb' (8 * i) 8 := by
  simp [leBytes]

/-- A word put together from bytes is zero above them (R75; log 5). -/
theorem leWord_lt (bs : List Byte) : (leWord bs).toNat < 2 ^ (8 * bs.length) := by
  induction bs with
  | nil => simp [leWord]
  | cons b bs ih =>
    have hpow : 2 ^ (8 * (bs.length + 1)) = 2 ^ 8 * 2 ^ (8 * bs.length) := by rw [← pow_add]; congr 1; ring
    have hhead : b.toNat < 2 ^ (8 * (bs.length + 1)) := b.isLt.trans_le (Nat.pow_le_pow_right (by decide) (by omega))
    have htail : ((leWord bs).toNat <<< 8) % 2 ^ 32 < 2 ^ (8 * (bs.length + 1)) :=
      (Nat.mod_le _ _).trans_lt (by rw [Nat.shiftLeft_eq, hpow]; omega)
    rw [List.length_cons, leWord, BitVec.toNat_or, BitVec.toNat_shiftLeft, BitVec.toNat_setWidth]
    exact Nat.or_lt_two_pow ((Nat.mod_le _ _).trans_lt hhead) htail

/-! ## The statements about the host port -/

/-- Settles O48, by the cases of a host read. -/
theorem hostReadsChangeNoState : Obligations.HostReadsChangeNoState := by
  intro s t off n rest h
  obtain ⟨hl, rfl⟩ | ⟨-, -, rfl⟩ | ⟨-, -, v, rfl⟩ := hostRead_eq_next (step_events_cons s _ rest ▸ h)
  · exact ⟨_, rfl, by simp [hl]⟩
  · exact ⟨_, rfl, fun _ => rfl⟩
  · exact ⟨_, rfl, fun _ => rfl⟩

/-- Settles O51: with BUSY = 0 `regWrite` ignores these offsets, and with BUSY = 1 they are not the dropped ones. -/
theorem readOnlyWritesAreIgnored : Obligations.ReadOnlyWritesAreIgnored := by
  intro s off v hr ha ho h4 h18 h1C
  cases hb : s.busy with
  | false => simpa only [regWrite_ignored v s h4 h18 h1C] using writesTo_regWrite ⟨hb, hr⟩ ha ho v
  | true =>
    have hd : droppedBusy off = false := by
      rw [Bool.eq_false_iff, Ne, droppedBusy_iff]
      omega
    exact fun _ => step_write_ignored hb hr (legalAccess_register ha ho) hd

/-- Settles O52: the bytes stored are those of `leBytes`, and a read after them is `Memory.read_writeBytes`. -/
theorem bufWritesStoreLittleEndian : Obligations.BufWritesStoreLittleEndian := by
  intro s a n v rest hs hn ha hle
  refine ⟨_, step_write_buf hs (legalAccess_buf hn ha hle), fun i hi => ?_, fun x hx => ?_⟩
  · have hi' : i < (leBytes n v).length := by rwa [leBytes_length]
    rw [Memory.read_writeBytes_inside _ _ _ _ hi', leBytes_getElem]
  · exact Memory.read_writeBytes_outside _ _ _ _ (by rwa [leBytes_length])

/-- Settles O53: a range that is marked reads as a vector of its bytes, and `Memory.readVec_eq_error` names the
lowest unmarked address of any other. -/
theorem bufReadsReturnTheStoredBytes : Obligations.BufReadsReturnTheStoredBytes := by
  intro s a n rest hs hn ha hle
  rw [step_read_buf hs (legalAccess_buf hn ha hle)]
  refine ⟨fun hm => ?_, fun i hi hm hnone => ?_⟩
  · obtain ⟨bytes, hv⟩ := Memory.readVec_total hm
    rw [hv, reading_ok]
    refine ⟨_, rfl, fun i hi => ?_, by simpa using leWord_lt bytes.toList⟩
    rw [leWord_byte (by simpa using hi) (by omega), Memory.readVec_eq_ok.mp hv i hi, Vector.getElem_toList]
  · have hv : s.buf.readVec a n = .error (a + i) := Memory.readVec_eq_error.mpr
      ⟨by omega, by omega, hnone, fun x hx hxi => by
        obtain ⟨j, rfl⟩ := Nat.exists_eq_add_of_le hx
        exact hm j (by omega)⟩
    rw [hv, reading_error]

/-- Settles O54: the exact offsets by `readsAs_regRead`, the others by `step_read_free`. -/
theorem busyReadsAreExactOrFree : Obligations.BusyReadsAreExactOrFree := by
  intro s hb hr
  have hmap : ∀ off, readableBusy off = true → off % 4 = 0 → off < 0x1000 → readsAs s off (regRead off s) :=
    fun off hx => readsAs_regRead hr (.inr hx)
  refine ⟨hmap 0x000 (by decide) rfl (by decide), hmap 0x008 (by decide) rfl (by decide),
    hmap 0x004 (by decide) rfl (by decide), fun off ha ho => ?_, fun off n rest hl ho => ?_⟩
  · have hx : readableBusy off = true := readableBusy_iff.mpr (by omega)
    exact regRead_reserved s (ho.imp_right And.left) ▸ hmap off hx ha (by omega)
  · have hx : readableBusy off = false := by
      rw [Bool.eq_false_iff, Ne, readableBusy_iff]
      omega
    exact ⟨_, step_read_free hb hr hl hx⟩

/-- No command touches the recorded fault (R308). -/
theorem Work.fault {s u : State} {i : Instr} (hw : Work s i u) : u.fault = s.fault := by cases hw <;> rfl

/-- Settles O55: an illegal access is `busError`, and no case of a step clears a recorded fault. -/
theorem busErrorsAreRecordedForever : Obligations.BusErrorsAreRecordedForever := by
  refine ⟨fun s off n v rest hl => ?_, fun s t f h hf => ?_⟩
  · rw [← legalAccess_iff, Bool.not_eq_true] at hl
    exact busError_eq off n { s with events := rest } ▸ step_illegal v hl
  · cases step_cases h with
    | completion _ hw => exact hw.fault.trans hf
    | answer _ _ _ hkeep => exact hkeep f hf
    | srst | dropped | accepted | seedWrite | bufWrite | assertReset | releaseReset => exact hf

/-! ## The completion step -/

/-- Settles O9: the step is the completion of the word, which decodes to the command. -/
theorem stepRunsTheDecodedCommand : Obligations.StepRunsTheDecodedCommand := by
  intro s w i hc hi
  rw [step_of_completes hc, completeWord, hi]

end Sys2Proof.Machine

/-!
SUPPORT and PROOFS for spec/30_encoding.md. First the operands a word holds for a command, and the rows of the opcode
map as the commands' own match and mask; then the round trip of the encoding, and the four outcomes of the decoder.
-/

namespace Sys2Proof

open Machine Certificates

/-! ## The operands of a word -/

/-- The command `i` with the operands replaced by the fields of `w` that R103 gives it. -/
def Instr.withFields (w : Word) : Instr → Instr
  | .hbyte _ => .hbyte (argField w)
  | .hbuf _ => .hbuf (lenField w)
  | .nextn _ => .nextn (lenField w)
  | .ksld _ => .ksld (argField w)
  | .sha _ => .sha (argField w)
  | .shd _ => .shd (argField w)
  | .pvld _ => .pvld (argField w)
  | .eblk _ => .eblk (argField w)
  | .dblk _ => .dblk (argField w)
  | .eblks _ => .eblks (argField w)
  | .dblks _ => .dblks (argField w)
  | .pad _ => .pad (lenField w)
  | .unpad _ => .unpad (lenField w)
  | .echnk _ _ => .echnk (lenField w) (finalField w)
  | .dchnk _ _ => .dchnk (lenField w) (finalField w)
  | i => i

@[simp] theorem opcode_withFields (w : Word) (i : Instr) : opcode (i.withFields w) = opcode i := by cases i <;> rfl

@[simp] theorem matchWord_withFields (w : Word) (i : Instr) : matchWord (i.withFields w) = matchWord i := by
  simp [matchWord]

@[simp] theorem fixedMask_withFields (w : Word) (i : Instr) : fixedMask (i.withFields w) = fixedMask i := by
  cases i <;> rfl

/-- One command for each row of R106, in the order of the rows, with every operand zero. -/
def rowCommands : List Instr :=
  [.nop, .srst, .hclr, .hbyte 0, .hbuf 0, .seedh, .seedr, .next, .nextn 0, .ksgen, .ksld 0, .sha 0, .shd 0, .pvld 0,
   .eblk 0, .dblk 0, .eblks 0, .dblks 0, .cinit, .pad 0, .unpad 0, .echnk 0 false, .dchnk 0 false]

/-- Every command belongs to a row. -/
theorem withFields_zero_mem_rowCommands (i : Instr) : i.withFields 0 ∈ rowCommands := by
  cases i <;> simp [Instr.withFields, rowCommands, argField, lenField, finalField]

/-- OP alone chooses the row of R106; the operands are the word's own fields. -/
theorem commandOf_of_opField {w : Word} {i : Instr} (h : opField w = opcode i) :
    commandOf w = some (i.withFields w) := by
  cases i <;> simp [commandOf, h, opcode, Instr.withFields]

/-- A command read from a word has the word's fields as its operands. -/
theorem withFields_of_commandOf {w : Word} {i : Instr} (h : commandOf w = some i) : i.withFields w = i :=
  Option.some.inj ((commandOf_of_opField (opField_of_commandOf h)).symm.trans h)

@[simp] theorem opField_matchWord (i : Instr) : opField (matchWord i) = opcode i := by cases i <;> rfl

/-- Every row of R106 fixes the whole of OP. -/
theorem opField_fixedMask (i : Instr) : opField (fixedMask i) = BitVec.allOnes 8 := by
  have hrows : ∀ j ∈ rowCommands, opField (fixedMask j) = BitVec.allOnes 8 := by decide
  simpa using hrows _ (withFields_zero_mem_rowCommands i)

/-- A word with the fixed bits of a command's row has its opcode. -/
theorem opField_of_fixedBits {w : Word} {i : Instr} (h : w &&& fixedMask i = matchWord i) : opField w = opcode i := by
  calc opField w = opField w &&& opField (fixedMask i) := by rw [opField_fixedMask, BitVec.and_allOnes]
    _ = opField (w &&& fixedMask i) := BitVec.extractLsb'_and.symm
    _ = opcode i := by rw [h, opField_matchWord]

/-- A word with the fixed bits of a command's row decodes to that command, with the word's fields as operands. -/
theorem decode_of_fixedBits {w : Word} {i : Instr} (h : w &&& fixedMask i = matchWord i) :
    decode w = .ok (i.withFields w) :=
  decode_eq_ok.mpr ⟨commandOf_of_opField (opField_of_fixedBits h), by simpa using h⟩

/-! ## The round trip (R121) -/

/-- No operand is dropped by the encoding. -/
theorem withFields_encode (i : Instr) : i.withFields (encode i) = i := by
  cases i <;> simp [encode, Instr.withFields]

/-- The encoding of every command has the fixed bits of its row (R104). -/
theorem encode_fixedBits (i : Instr) : encode i &&& fixedMask i = matchWord i := by
  cases i with
  | hbyte | ksld | sha | shd | pvld | eblk | dblk | eblks | dblks => exact Laws.FixedBits.arg_word _ _
  | hbuf | nextn | pad | unpad => exact Laws.FixedBits.len_word _ _
  | echnk | dchnk => exact Laws.FixedBits.len_final_word _ _ _
  | nop | srst | hclr | seedh | seedr | next | ksgen | cinit => rfl

/-- Settles O1: the encoding has the fixed bits of its row, and its fields are the command's operands. -/
theorem decodeOfEncodeIsTheCommand : Obligations.DecodeOfEncodeIsTheCommand := fun i =>
  (decode_of_fixedBits (encode_fixedBits i)).trans (congrArg _ (withFields_encode i))

/-- Two words that agree on the bits of a mask and on the bits outside it are equal. -/
theorem eq_of_and_mask_eq {v w m : Word} (hfixed : v &&& m = w &&& m) (hfree : v &&& ~~~m = w &&& ~~~m) : v = w := by
  calc v = v &&& m ||| v &&& ~~~m := by rw [← BitVec.and_or_distrib_left, BitVec.or_not_self, BitVec.and_allOnes]
    _ = w &&& m ||| w &&& ~~~m := by rw [hfixed, hfree]
    _ = w := by rw [← BitVec.and_or_distrib_left, BitVec.or_not_self, BitVec.and_allOnes]

/-- Packing ARG keeps the bits of its field (R101). -/
theorem packWord_argField_freeBits (w : Word) (op : BitVec 8) :
    packWord false 0 (argField w) op &&& ~~~0xFFFF00FF#32 = w &&& ~~~0xFFFF00FF#32 := by
  apply BitVec.eq_of_getLsbD_eq
  intro i hi
  interval_cases i <;> simp [packWord, argField]

/-- Packing LEN keeps the bits of its field (R101). -/
theorem packWord_lenField_freeBits (w : Word) (op : BitVec 8) :
    packWord false (lenField w) 0 op &&& ~~~0xE000FFFF#32 = w &&& ~~~0xE000FFFF#32 := by
  apply BitVec.eq_of_getLsbD_eq
  intro i hi
  interval_cases i <;> simp [packWord, lenField]

/-- Packing LEN and F keeps the bits of their fields (R101). -/
theorem packWord_lenField_finalField_freeBits (w : Word) (op : BitVec 8) :
    packWord (finalField w) (lenField w) 0 op &&& ~~~0xC000FFFF#32 = w &&& ~~~0xC000FFFF#32 := by
  apply BitVec.eq_of_getLsbD_eq
  intro i hi
  interval_cases i <;> simp [packWord, lenField, finalField]

/-- The bits a row leaves free are the operands, so encoding a word's own operands keeps them. -/
theorem encode_withFields_freeBits (w : Word) (i : Instr) :
    encode (i.withFields w) &&& ~~~fixedMask i = w &&& ~~~fixedMask i := by
  cases i with
  | hbyte | ksld | sha | shd | pvld | eblk | dblk | eblks | dblks => exact packWord_argField_freeBits w _
  | hbuf | nextn | pad | unpad => exact packWord_lenField_freeBits w _
  | echnk | dchnk => exact packWord_lenField_finalField_freeBits w _
  | nop | srst | hclr | seedh | seedr | next | ksgen | cinit => simp [fixedMask]

/-- A word with the fixed bits of a command's row is the encoding of that command with the word's fields. -/
theorem encode_withFields {w : Word} {i : Instr} (h : w &&& fixedMask i = matchWord i) :
    encode (i.withFields w) = w := by
  have hfixed : encode (i.withFields w) &&& fixedMask i = matchWord i := by
    simpa using encode_fixedBits (i.withFields w)
  exact eq_of_and_mask_eq (hfixed.trans h.symm) (encode_withFields_freeBits w i)

/-- Decoding loses no bit of a legal word: only the encoding of `i` decodes to `i`. -/
theorem encode_of_decode {w : Word} {i : Instr} (h : decode w = .ok i) : encode i = w := by
  obtain ⟨hc, hm⟩ := decode_eq_ok.mp h
  exact withFields_of_commandOf hc ▸ encode_withFields hm

/-! ## The rows of the opcode map -/

theorem opcodeRows_eq : opcodeRows = rowCommands.map fun i => (matchWord i, fixedMask i) := by decide

/-- The rows of the spec's table are the match and mask of the commands. -/
theorem mem_opcodeRows {r : Word × Word} : r ∈ opcodeRows ↔ ∃ i, (matchWord i, fixedMask i) = r := by
  rw [opcodeRows_eq, List.mem_map]
  exact ⟨fun ⟨i, _, e⟩ => ⟨i, e⟩, fun ⟨i, e⟩ => ⟨_, withFields_zero_mem_rowCommands i, by simpa using e⟩⟩

theorem fitsRow_iff {w : Word} : fitsRow w ↔ ∃ i, w &&& fixedMask i = matchWord i := by
  simp [fitsRow, mem_opcodeRows]

theorem opAssigned_iff {w : Word} : opAssigned w ↔ ∃ i, opField w = opcode i := by
  have hop : ∀ i, (matchWord i).extractLsb' 0 8 = opcode i := opField_matchWord
  simp [opAssigned, mem_opcodeRows, hop, opField]

/-- The words that decode are the legal words of the rows (R104, R109). -/
theorem exists_decode_iff {w : Word} : (∃ i, decode w = .ok i) ↔ fitsRow w := by
  rw [fitsRow_iff]
  exact ⟨fun ⟨i, h⟩ => ⟨i, (decode_eq_ok.mp h).2⟩, fun ⟨i, h⟩ => ⟨_, decode_of_fixedBits h⟩⟩

/-- Settles O2: a legal word decodes to its row's command, and holds nothing but that command's encoding. -/
theorem decodableWordsAreTheLegalWords : Obligations.DecodableWordsAreTheLegalWords := fun _ =>
  ⟨exists_decode_iff, fun _ => encode_of_decode⟩

/-! ## The four outcomes (R109) -/

/-- OP names a command exactly where some row has it (R107). -/
theorem commandOf_eq_none {w : Word} : commandOf w = none ↔ ¬ opAssigned w := by
  rw [opAssigned_iff, ← not_iff_not, not_not, Option.eq_none_iff_forall_ne_some, not_forall_not]
  exact ⟨fun ⟨i, h⟩ => ⟨i, opField_of_commandOf h⟩, fun ⟨i, h⟩ => ⟨_, commandOf_of_opField h⟩⟩

/-- BADOP: exactly the words with an unassigned OP, whatever the other bits. -/
theorem decode_eq_badOp {w : Word} : decode w = .error .badOp ↔ ¬ opAssigned w := by
  rw [← commandOf_eq_none, decode]
  split
  · simp [*]
  · split <;> simp [*]

/-- RSVD: exactly the words with an assigned OP that are no row's legal words. -/
theorem decode_eq_rsvd {w : Word} : decode w = .error .rsvd ↔ opAssigned w ∧ ¬ fitsRow w := by
  rw [← not_not (a := opAssigned w), ← decode_eq_badOp, ← exists_decode_iff]
  rcases decode w with (_ | _) | i <;> simp

/-- The model's LEN check is the table of R105. -/
theorem wellFormed_iff {i : Instr} : i.wellFormed = true ↔ legalLen i := by
  cases i with
  | hbuf len | nextn len => exact decide_eq_true_iff
  | pad len => exact decide_eq_true_iff.trans Nat.lt_succ_iff
  | unpad len | dchnk len final => simp [Instr.wellFormed, lenLegal, lenBlocks, legalLen, and_assoc]
  | echnk len final =>
    cases final with
    | true => exact decide_eq_true_iff.trans Nat.lt_succ_iff
    | false => simp [Instr.wellFormed, lenLegal, lenEchnk, lenBlocks, legalLen, and_assoc]
  | _ => exact iff_of_true rfl trivial

/-- Settles O4: the error of `decode` gives the first two outcomes, and the LEN check splits the legal words. -/
theorem classifyFollowsTheDecoderOrder : Obligations.ClassifyFollowsTheDecoderOrder := by
  refine fun w => ⟨fun hop => ?_, fun hop hfit => ?_, fun hfit => ?_⟩
  · rw [classify, decode_eq_badOp.mpr hop]
  · rw [classify, decode_eq_rsvd.mpr ⟨hop, hfit⟩]
  · obtain ⟨i, hi⟩ := exists_decode_iff.mpr hfit
    refine ⟨i, encode_of_decode hi, fun hlen => ?_, fun hlen => ?_⟩
    · rw [classify, hi]
      exact if_neg (mt wellFormed_iff.mp hlen)
    · rw [classify, hi]
      exact if_pos (wellFormed_iff.mpr hlen)

/-- Settles O3: the legal words are encodings, so the round trip decodes them; the other two are no command's word. -/
theorem wordsOfTheSpecDecode : Obligations.WordsOfTheSpecDecode :=
  ⟨decodeOfEncodeIsTheCommand (.hbyte 97), decodeOfEncodeIsTheCommand (.eblk 3),
    decodeOfEncodeIsTheCommand (.echnk 4096 false), decodeOfEncodeIsTheCommand (.echnk 5 true),
    decodeOfEncodeIsTheCommand (.dchnk 32 true), decodeOfEncodeIsTheCommand (.nextn 16),
    decodeOfEncodeIsTheCommand (.pad 4095), decodeOfEncodeIsTheCommand .srst, by decide, by decide⟩

end Sys2Proof

/-!
SUPPORT and PROOFS for spec/40_generator.md. First what completion with OK writes and what one LCG step is as a number
and on the byte drawn; then the period, and each command of the generator from these and the draws in closed form.
-/

namespace Sys2Proof.Machine

open Sys2Proof.Certificates Function

/-! ## Completion with OK -/

/-- Completion with OK writes ERR, LATCH and BUSY, and leaves ERRS as it was (R86, R300). -/
theorem complete_ok_eq (s : State) : complete .ok s = { s with err := 0, latch := none, busy := false } := by
  simp [complete, ErrCode.code]

/-- The next state of a command that raised nothing (R86, R300). -/
theorem finish_eq (s : State) : finish s = .next { s with err := 0, latch := none, busy := false } := by
  rw [finish, complete_ok_eq]

/-- Settles O24: both commands are one assignment and the completion. -/
theorem seedCommandsLoadTheGenerator : Obligations.SeedCommandsLoadTheGenerator := fun _ =>
  ⟨finish_eq _, finish_eq _⟩

/-! ## One step -/

theorem lcgStep_toNat (s : DWord) : (lcgStep s).toNat = (1103515245 * s.toNat + 12345) % 2 ^ 64 % 256 := by
  rw [lcgStep, BitVec.toNat_umod, BitVec.toNat_add, BitVec.toNat_mul, Nat.mod_add_mod]
  rfl

/-- The modulus 256 divides 2^64, so a step needs only the low byte of the state (R140). -/
theorem lcgStep_toNat_byte (s : DWord) : (lcgStep s).toNat = (109 * (s.toNat % 256) + 57) % 256 := by
  rw [lcgStep_toNat, Nat.mod_mod_of_dvd _ (by decide)]
  omega

/-- Settles O25. -/
theorem lcgStepIsTheByteRecurrence : Obligations.LcgStepIsTheByteRecurrence := fun s =>
  ⟨lcgStep_toNat s, lcgStep_toNat_byte s⟩

/-- Settles O27: a draw and the completion. -/
theorem nextDrawsOneByte : Obligations.NextDrawsOneByte := fun _ => finish_eq _

/-! ## The period -/

/-- An affine map on bytes: what an LCG step does to the byte drawn. -/
def affine (a c b : Byte) : Byte := a * b + c

/-- Two applications of an affine map are one affine map. -/
theorem affine_iterate_two (a c : Byte) : (affine a c)^[2] = affine (a * a) (a * c + c) := by
  funext b
  simp only [iterate_succ_apply, iterate_zero_apply, affine]
  ring

theorem drawnByte_toNat (s : DWord) : (drawnByte s).toNat = s.toNat % 256 := by
  simp [drawnByte]

/-- The byte drawn follows a recurrence of its own. -/
theorem drawnByte_semiconj : Semiconj drawnByte lcgStep (affine 109 57) := by
  intro s
  apply BitVec.eq_of_toNat_eq
  simp only [drawnByte_toNat, lcgStep_toNat_byte, affine, BitVec.toNat_add, BitVec.toNat_mul,
    show (109 : Byte).toNat = 109 from rfl, show (57 : Byte).toNat = 57 from rfl]
  omega

/-- A state after a draw is its low byte. -/
theorem lcgStep_eq_iff_drawnByte {s t : DWord} :
    lcgStep s = lcgStep t ↔ drawnByte (lcgStep s) = drawnByte (lcgStep t) := by
  simp only [← BitVec.toNat_inj, drawnByte_toNat, lcgStep_toNat_byte, Nat.mod_mod]

/-- After the first draw the state returns exactly when the byte drawn does. -/
theorem isPeriodicPt_lcgStep_iff {n : ℕ} {s : DWord} :
    IsPeriodicPt lcgStep n (lcgStep s) ↔ IsPeriodicPt (affine 109 57) n (drawnByte (lcgStep s)) := by
  have hcomm : lcgStep (lcgStep^[n] s) = lcgStep^[n] (lcgStep s) := Commute.self_iterate lcgStep n s
  rw [IsPeriodicPt, IsFixedPt, ← hcomm, lcgStep_eq_iff_drawnByte, hcomm, (drawnByte_semiconj.iterate_right n).eq]
  rfl

/-- Half a period of the byte drawn flips its top bit. -/
theorem affine_iterate_128 (b : Byte) : (affine 109 57)^[2 ^ 7] b = b + 128 := by
  have h : (affine 109 57)^[2 * 2 * 2 * 2 * 2 * 2 * 2] = affine 1 128 := by
    simp only [iterate_mul, affine_iterate_two]
    rfl
  exact (congrFun h b).trans (by simp [affine])

/-- The period of the byte drawn is a power of 2: it divides 256 and not 128. -/
theorem minimalPeriod_lcgStep (s : DWord) : minimalPeriod lcgStep (lcgStep s) = 2 ^ 8 := by
  apply minimalPeriod_eq_prime_pow <;> rw [isPeriodicPt_lcgStep_iff, IsPeriodicPt, IsFixedPt]
  · rw [affine_iterate_128, add_eq_left]
    decide
  · rw [pow_succ, mul_two, iterate_add_apply, affine_iterate_128, affine_iterate_128, add_assoc, add_eq_left]
    decide

/-- Settles O26: 256 is the minimal period of every state after a draw, and a step needs the low byte only. -/
theorem generatorHasPeriodExactly256 : Obligations.GeneratorHasPeriodExactly256 := by
  refine ⟨fun s => ⟨?_, fun k h0 hk => ?_⟩, fun s s' h => ?_⟩
  · have hper := isPeriodicPt_minimalPeriod lcgStep (lcgStep s)
    rwa [minimalPeriod_lcgStep] at hper
  · exact not_isPeriodicPt_of_pos_of_lt_minimalPeriod h0.ne' (minimalPeriod_lcgStep s ▸ hk)
  · exact BitVec.eq_of_toNat_eq (by rw [lcgStep_toNat_byte, lcgStep_toNat_byte, h])

/-! ## The draws of NEXTN, KSGEN and CINIT -/

/-- The last byte of `next_n(n)`, if there is one, is the byte of the state it leaves (R146). -/
theorem drawN_getLast (n : Nat) (c : DWord) (r : Byte) :
    (drawN n c).1.toList.getLast?.getD r = if n = 0 then r else drawnByte (lcgStep^[n] c) := by
  cases n with
  | zero => rfl
  | succ n => simp [drawN_succ, drawN_snd, Vector.toList_push, iterate_succ_apply']

/-- Settles O28: the stored bytes are the draws in closed form. -/
theorem nextnStoresTheDrawsInOrder : Obligations.NextnStoresTheDrawsInOrder := by
  intro s len hlen
  refine ⟨s.buf.writeBytes 0 (drawN len.toNat s.curr).1.toList, ?_, fun k hk => ?_, fun x hx => ?_⟩
  · refine execNextn_eq_next.mpr (.inr ⟨decide_eq_true hlen, ?_⟩)
    rw [complete_ok_eq, drawN_snd, drawN_getLast]
    rfl
  · have hread := s.buf.read_writeBytes_inside 0 k (drawN len.toNat s.curr).1.toList (by simpa using hk)
    rwa [Nat.zero_add, Vector.getElem_toList, drawN_getElem _ _ _ hk] at hread
  · exact s.buf.read_writeBytes_outside 0 x _ (by simpa using hx)

/-- Settles O29: the block is the 16 draws in closed form. -/
theorem ksgenAndCinitDrawSixteenBytes : Obligations.KsgenAndCinitDrawSixteenBytes := by
  refine fun s => ⟨(drawBlock s.curr).1, fun i => drawBlock_getElem s.curr i i.isLt, ?_, fun hp => ?_⟩
  · rw [← drawBlock_snd]
    exact finish_eq _
  · rw [← drawBlock_snd]
    exact execCinit_eq_next.mpr (.inr ⟨hp, by rw [complete_ok_eq]⟩)

/-- A transform with the stream KSGEN leaves in KS is the step that draws this stream itself, stops included (R147). -/
theorem storedBlock_ksgen {f : Chain → Block → Block × Chain} {g : Block → Block → Block → Block × Block}
    (hfg : ∀ c B, f c B = ((g B c.prev (drawBlock c.curr).1).1,
      ⟨(drawBlock c.curr).2, (g B c.prev (drawBlock c.curr).1).2, (drawBlock c.curr).1⟩))
    {s t : State} (b : BitVec 8) (ht : exec .ksgen s = .next t) : storedBlock g b t = stepBlock f b s := by
  obtain rfl := finish_eq_next.mp ht
  rw [complete_ok_eq, storedBlock, stepBlock]
  cases s.buf.readBlock (blockAddr b) with
  | error a => simp only [reading_error]
  | ok B => simp only [reading_ok, finish_eq, hfg, State.chain, State.withChain]

/-- Settles O38: `encStep` and `decStep` are a draw and the transform. -/
theorem ksgenThenStoredEqualsFresh : Obligations.KsgenThenStoredEqualsFresh := fun _ _ b ht =>
  ⟨storedBlock_ksgen (fun _ _ => rfl) b ht, storedBlock_ksgen (fun _ _ => rfl) b ht⟩

/-! ## How often a command draws (R148) -/

/-- A chunk command draws one byte for each byte of the blocks it reads. -/
theorem runBlocks_curr_of_readBlocks {f : Chain → Block → Block × Chain}
    (hf : ∀ c B, (f c B).2.curr = lcgStep^[16] c.curr) {len : BitVec 13} {final : Bool} {m : Memory} {Bs : List Block}
    (hl : lenEchnk len final = true) (hB : m.readBlocks 0 (paddedLen len final / Config.block) = .ok Bs) (c : Chain) :
    (runBlocks f c Bs).2.curr = lcgStep^[paddedLen len final] c.curr := by
  rw [runBlocks_curr hf, (Memory.readBlocks_eq_ok.mp hB).1]
  exact congrArg (lcgStep^[·] c.curr) (paddedLen_blocks hl)

theorem drawCount_echnk (len : BitVec 13) (final : Bool) : drawCount (.echnk len final) = paddedLen len final := by
  cases final <;> rfl

/-- The row of R148 for a completed command: LEN and SEQ draw nothing, every other completion draws `drawCount`. -/
theorem curr_of_exec {i : Instr} {s t : State} (h : exec i s = .next t) (hr : i ≠ .seedr)
    (hh : i ≠ .seedh) (hs : i ≠ .srst) :
    t.curr = lcgStep^[if t.err = 3 ∨ t.err = 4 then 0 else drawCount i] s.curr := by
  cases i with
  | seedr => exact absurd rfl hr
  | seedh => exact absurd rfl hh
  | srst => exact absurd rfl hs
  | next =>
    obtain rfl := finish_eq_next.mp h
    rfl
  | nextn len =>
    obtain ⟨-, rfl⟩ | ⟨-, rfl⟩ := execNextn_eq_next.mp h
    · rfl
    · exact drawN_snd _ _
  | ksgen =>
    obtain rfl := finish_eq_next.mp h
    exact drawBlock_snd _
  | cinit =>
    obtain ⟨-, rfl⟩ | ⟨-, rfl⟩ := execCinit_eq_next.mp h
    · rfl
    · exact drawBlock_snd _
  | eblk b | dblk b =>
    obtain ⟨B, -, rfl⟩ := stepBlock_eq_next.mp h
    exact drawBlock_snd _
  | echnk len final =>
    rw [drawCount_echnk]
    obtain ⟨-, rfl⟩ | ⟨hl, ⟨-, rfl⟩ | ⟨-, Bs, hB, rfl⟩⟩ := execEchnk_eq_next.mp h
    · rfl
    · rfl
    · exact runBlocks_curr_of_readBlocks encStep_curr hl hB s.chain
  | dchnk len final =>
    obtain ⟨-, rfl⟩ | ⟨hl, ⟨-, rfl⟩ | ⟨-, Bs, c, o, hB, hc, -, rfl⟩⟩ := execDchnk_shape h
    · rfl
    · rfl
    · have hcurr := runBlocks_curr_of_readBlocks (final := false) decStep_curr hl hB s.chain
      obtain rfl | rfl := hc <;> exact hcurr
  | _ =>
    rw [drawCount, ite_self, iterate_zero_apply]
    obtain ⟨hi, -⟩ | ⟨c, u, rfl, hw⟩ := exec_cases h
    · exact absurd hi hs
    · cases hw <;> rfl

/-- Settles O30: the commands by their rows, and a word that is no command only completes. -/
theorem drawsDependOnlyOnTheCommand : Obligations.DrawsDependOnlyOnTheCommand := by
  refine ⟨fun i s t => curr_of_exec, fun s t w hc hw h => ?_⟩
  rw [step_of_completes hc] at h
  obtain ⟨c, rfl⟩ := completeWord_of_undecodable hw h
  rfl

end Sys2Proof.Machine

/-!
SUPPORT and PROOFS for spec/41_permuter.md. First a swap step, and so each shuffle, as a permutation of the positions,
the descending one the inverse of the ascending one (R173); then the statements about the shuffles, and the commands
that read a marked block from these and the laws of BUF.
-/

namespace Sys2Proof.Machine

open Sys2Proof.Certificates Equiv

/-! ## The shuffles as permutations of the positions -/

/-- The transposition of positions that stream byte `i` names (R170). -/
def stepPerm (S : Block) (i : Fin 16) : Perm (Fin 16) := swap (loNibble S[i]) (hiNibble S[i])

/-- The permutation of the positions that the ascending shuffle applies (R171): it depends on the stream only. -/
def shufflePerm (S : Block) : Perm (Fin 16) := ((List.finRange 16).map (stepPerm S)).prod

theorem swapStep_getElem (S B : Block) (i k : Fin 16) : (swapStep S B i)[k] = B[stepPerm S i k] := by
  simp only [swapStep, stepPerm, swap_apply_def, Fin.getElem_fin, Vector.getElem_swap, Fin.val_inj]
  split_ifs <;> rfl

/-- Swap steps one after another permute the positions by the product of their transpositions. -/
theorem foldl_swapStep_getElem (S B : Block) (l : List (Fin 16)) (k : Fin 16) :
    (l.foldl (swapStep S) B)[k] = B[(l.map (stepPerm S)).prod k] := by
  induction l generalizing B with
  | nil => rfl
  | cons i l ih => simp only [List.foldl_cons, ih, swapStep_getElem, List.map_cons, List.prod_cons, Perm.mul_apply]

theorem shuffleAsc_getElem (B S : Block) (k : Fin 16) : (shuffleAsc B S)[k] = B[shufflePerm S k] :=
  foldl_swapStep_getElem S B _ k

/-- The transpositions in reverse order are the inverse permutation, because each is its own inverse (R173). -/
theorem prod_reverse_stepPerm (S : Block) (l : List (Fin 16)) :
    (l.reverse.map (stepPerm S)).prod = (l.map (stepPerm S)).prod⁻¹ := by
  have hself : (fun σ : Perm (Fin 16) => σ⁻¹) ∘ stepPerm S = stepPerm S := funext fun _ => swap_inv _ _
  rw [List.prod_inv_reverse, List.map_map, hself, List.map_reverse]

theorem shuffleDesc_getElem (B S : Block) (k : Fin 16) : (shuffleDesc B S)[k] = B[(shufflePerm S).symm k] := by
  simp only [shuffleDesc, foldl_swapStep_getElem, prod_reverse_stepPerm, shufflePerm, Perm.inv_def]

/-- Two blocks with the same byte at every position are equal. -/
theorem block_ext {B B' : Block} (h : ∀ i : Fin 16, B[i] = B'[i]) : B = B' := Vector.ext fun i hi => h ⟨i, hi⟩

/-- Settles O31: the two shuffles permute the positions by inverse permutations. -/
theorem shufflesAreInverse : Obligations.ShufflesAreInverse := fun B S =>
  ⟨block_ext fun i => by simp only [shuffleDesc_getElem, shuffleAsc_getElem, apply_symm_apply],
    block_ext fun i => by simp only [shuffleAsc_getElem, shuffleDesc_getElem, symm_apply_apply]⟩

/-! ## The positions a stream byte names -/

theorem loNibble_val (x : Byte) : (loNibble x).val = x.toNat % 16 := by
  simp [loNibble]

theorem hiNibble_val (x : Byte) : (hiNibble x).val = x.toNat / 16 := by
  have := x.isLt
  simp only [hiNibble, BitVec.toFin_extractLsb', Fin.val_ofNat, Nat.shiftRight_eq_div_pow]
  omega

/-- Settles O32: a step is its transposition, and both shuffles are folds over the indices, each a permutation of
the positions by `shufflePerm` or its inverse. -/
theorem shuffleIsAPermutationFixedByTheStream : Obligations.ShuffleIsAPermutationFixedByTheStream := by
  refine ⟨fun B S i => ?_, fun B S => ⟨rfl, rfl⟩, fun S => ?_⟩
  · refine ⟨loNibble S[i], hiNibble S[i], loNibble_val _, hiNibble_val _, ?_, ?_, fun k hlo hhi => ?_⟩
    · simp only [swapStep_getElem, stepPerm, swap_apply_left]
    · simp only [swapStep_getElem, stepPerm, swap_apply_right]
    · simp only [swapStep_getElem, stepPerm, swap_apply_of_ne_of_ne hlo hhi]
  · exact ⟨shufflePerm S, (shufflePerm S).symm, (shufflePerm S).bijective, (shufflePerm S).symm.bijective,
      fun B i => ⟨shuffleAsc_getElem B S i, shuffleDesc_getElem B S i⟩⟩

/-! ## The commands that read a marked block -/

theorem readBlock_of_holdsBlock {m : Memory} {b : BitVec 8} {B : Block} (h : holdsBlock m (16 * b.toNat) B) :
    m.readBlock (blockAddr b) = .ok B := Memory.readBlock_eq_ok.mpr fun i hi => h ⟨i, hi⟩

/-- A block stored at `blk(b)` is what BUF holds there, and every other byte reads as before (R84). -/
theorem writeBlock_inPlace (m : Memory) (b : BitVec 8) (B : Block) :
    holdsBlock (m.writeBlock (blockAddr b) B) (16 * b.toNat) B ∧
      sameOutside m (m.writeBlock (blockAddr b) B) (16 * b.toNat) 16 :=
  ⟨fun i => m.read_writeBytes_inside (blockAddr b) i B.toList (by simp), (storesIn_writeBlock b m B).same⟩

/-- Settles O33: the block is read, and the completion writes STATUS and LATCH only. -/
theorem blockLoadsComplete : Obligations.BlockLoadsComplete := fun _ _ B h =>
  ⟨execKsld_eq_next.mpr ⟨B, readBlock_of_holdsBlock h, by rw [complete_ok_eq]⟩,
    execPvld_eq_next.mpr ⟨B, readBlock_of_holdsBlock h, by rw [complete_ok_eq]⟩⟩

/-- Settles O34: the block read is shuffled and stored in its place. -/
theorem shuffleCommandsPermuteTheBlock : Obligations.ShuffleCommandsPermuteTheBlock := by
  intro s b B h
  refine ⟨⟨s.buf.writeBlock (blockAddr b) (shuffleAsc B s.ks), ?_, writeBlock_inPlace _ b _⟩,
    ⟨s.buf.writeBlock (blockAddr b) (shuffleDesc B s.ks), ?_, writeBlock_inPlace _ b _⟩⟩
  · exact execSha_eq_next.mpr ⟨B, readBlock_of_holdsBlock h, by rw [complete_ok_eq]⟩
  · exact execShd_eq_next.mpr ⟨B, readBlock_of_holdsBlock h, by rw [complete_ok_eq]⟩

end Sys2Proof.Machine

/-!
SUPPORT and PROOFS for spec/42_block_transform.md. First XOR of blocks and the shuffles where the block or the stream is
zero, and from these the two pure transforms; then the commands that transform a marked block, each pair by the form it
shares and the laws of a block stored in its place.
-/

namespace Sys2Proof.Machine

open Sys2Proof.Certificates

/-! ## The pure transforms -/

theorem xorBlock_getElem (A B : Block) (i : Fin 16) : (xorBlock A B)[i] = A[i] ^^^ B[i] :=
  Vector.getElem_ofFn i.isLt

theorem zeroBlock_getElem (i : Fin 16) : zeroBlock[i] = 0#8 := Vector.getElem_replicate i.isLt

@[simp] theorem xorBlock_self (A : Block) : xorBlock A A = zeroBlock :=
  block_ext fun i => by rw [xorBlock_getElem, zeroBlock_getElem, BitVec.xor_self]

@[simp] theorem xorBlock_zeroBlock (A : Block) : xorBlock A zeroBlock = A :=
  block_ext fun i => by rw [xorBlock_getElem, zeroBlock_getElem, BitVec.xor_zero]

@[simp] theorem zeroBlock_xorBlock (A : Block) : xorBlock zeroBlock A = A :=
  block_ext fun i => by rw [xorBlock_getElem, zeroBlock_getElem, BitVec.zero_xor]

@[simp] theorem xorBlock_xorBlock_cancel (A B : Block) : xorBlock (xorBlock A B) B = A :=
  block_ext fun i => by simp only [xorBlock_getElem, BitVec.xor_assoc, BitVec.xor_self, BitVec.xor_zero]

/-- Permuting equal bytes changes nothing. -/
@[simp] theorem shuffleAsc_zeroBlock (S : Block) : shuffleAsc zeroBlock S = zeroBlock :=
  block_ext fun i => by rw [shuffleAsc_getElem, zeroBlock_getElem, zeroBlock_getElem]

/-- Each byte of a zero stream swaps position 0 with itself. -/
theorem stepPerm_zeroBlock (i : Fin 16) : stepPerm zeroBlock i = 1 := by
  rw [stepPerm, zeroBlock_getElem]
  exact Equiv.swap_self 0

theorem shufflePerm_zeroBlock : shufflePerm zeroBlock = 1 :=
  List.prod_eq_one fun σ hσ => by
    obtain ⟨i, -, rfl⟩ := List.mem_map.mp hσ
    exact stepPerm_zeroBlock i

@[simp] theorem shuffleAsc_zeroStream (B : Block) : shuffleAsc B zeroBlock = B :=
  block_ext fun i => by simp only [shuffleAsc_getElem, shufflePerm_zeroBlock, Equiv.Perm.one_apply]

/-- Decryption undoes the three layers of encryption in reverse order, and takes the ciphertext as the next PREV. -/
theorem decBlock_encBlock (B P S : Block) : decBlock (encBlock B P S).1 P S = (B, (encBlock B P S).1) := by
  simp only [decBlock, encBlock, xorBlock_xorBlock_cancel, (shufflesAreInverse _ S).1]

theorem encBlock_prev_self (B S : Block) : (encBlock B B S).1 = S := by
  simp only [encBlock, xorBlock_self, shuffleAsc_zeroBlock, zeroBlock_xorBlock]

theorem encBlock_zeroBlock (B : Block) : (encBlock B zeroBlock zeroBlock).1 = B := by
  simp only [encBlock, xorBlock_zeroBlock, shuffleAsc_zeroStream]

/-- Settles O35: the layers byte for byte, the inversion, and the two corner cases. -/
theorem decryptUndoesEncrypt : Obligations.DecryptUndoesEncrypt :=
  ⟨fun B P S => ⟨xorBlock B P, xorBlock_getElem B P, xorBlock_getElem _ S, rfl⟩,
    fun B P S => ⟨xorBlock B S, xorBlock_getElem B S, xorBlock_getElem _ P, rfl⟩,
    decBlock_encBlock, encBlock_prev_self, encBlock_zeroBlock⟩

/-! ## The commands that transform a marked block -/

section
variable {s : State} {b : BitVec 8} {B : Block} (h : holdsBlock s.buf (16 * b.toNat) B)
include h

/-- A step with a fresh stream on a marked block completes: it stores the output in its place and leaves the chain
of the step. -/
theorem stepBlock_inPlace (f : Chain → Block → Block × Chain) :
    ∃ m, stepBlock f b s = .next { s with
        buf := m, prev := (f s.chain B).2.prev, ks := (f s.chain B).2.ks, curr := (f s.chain B).2.curr
        err := 0, latch := none, busy := false } ∧
      holdsBlock m (16 * b.toNat) (f s.chain B).1 ∧ sameOutside s.buf m (16 * b.toNat) 16 :=
  ⟨_, stepBlock_eq_next.mpr ⟨B, readBlock_of_holdsBlock h, by rw [complete_ok_eq]; rfl⟩, writeBlock_inPlace _ b _⟩

/-- A transform with the KS held on a marked block completes: it stores the output in its place and leaves the next
PREV. -/
theorem storedBlock_inPlace (f : Block → Block → Block → Block × Block) :
    ∃ m, storedBlock f b s = .next { s with
        buf := m, prev := (f B s.prev s.ks).2, err := 0, latch := none, busy := false } ∧
      holdsBlock m (16 * b.toNat) (f B s.prev s.ks).1 ∧ sameOutside s.buf m (16 * b.toNat) 16 :=
  ⟨_, storedBlock_eq_next.mpr ⟨B, readBlock_of_holdsBlock h, by rw [complete_ok_eq]⟩, writeBlock_inPlace _ b _⟩

end

/-- Settles O36: `encStep` and `decStep` draw the stream, whose bytes are the 16 draws in closed form. -/
theorem freshStreamBlockCommandsComplete : Obligations.FreshStreamBlockCommandsComplete := by
  intro s b B h
  refine ⟨(drawBlock s.curr).1, fun i => drawBlock_getElem s.curr i i.isLt, ?_⟩
  rw [← drawBlock_snd]
  exact ⟨stepBlock_inPlace h encStep, stepBlock_inPlace h decStep⟩

/-- Settles O37: both commands are the transform with the KS held. -/
theorem storedStreamBlockCommandsComplete : Obligations.StoredStreamBlockCommandsComplete := fun _ _ _ h =>
  ⟨storedBlock_inPlace h encBlock, storedBlock_inPlace h decBlock⟩

end Sys2Proof.Machine

/-!
SUPPORT and PROOFS for spec/43_framer.md. First blocks in BUF as the bytes they are, then padding and unpadding; then
what a chunk command leaves (`afterChunk`), said once for ECHNK and DCHNK, and the statements about the chunk commands
from it.
-/

namespace Sys2Proof.Machine

open Sys2Proof.Certificates

/-! ## Blocks in BUF as bytes -/

theorem bytesOf_length (Bs : List Block) : (bytesOf Bs).length = 16 * Bs.length := by
  induction Bs with
  | nil => rfl
  | cons B Bs ih =>
    rw [bytesOf, List.flatMap_cons, List.length_append, ih, Vector.length_toList, List.length_cons]
    omega

theorem bytesOf_append (Bs Cs : List Block) : bytesOf (Bs ++ Cs) = bytesOf Bs ++ bytesOf Cs := List.flatMap_append

/-- Byte `i` of block `j` is byte `16 * j + i`. -/
theorem bytesOf_getElem? {Bs : List Block} {j i : Nat} (hj : j < Bs.length) (hi : i < 16) :
    (bytesOf Bs)[16 * j + i]? = some Bs[j][i] := by
  induction Bs generalizing j with
  | nil => simp at hj
  | cons B Bs ih =>
    rw [bytesOf, List.flatMap_cons]
    cases j with
    | zero => rw [Nat.mul_zero, Nat.zero_add, List.getElem?_append_left (by simpa using hi)]; simp [hi]
    | succ j =>
      rw [show 16 * (j + 1) + i = B.toList.length + (16 * j + i) by rw [Vector.length_toList]; omega,
        List.getElem?_append_right (Nat.le_add_right _ _), Nat.add_sub_cancel_left]
      exact ih (by simpa using hj)

theorem holdsBytes_iff {m : Memory} {a : Nat} {bs : List Byte} :
    holdsBytes m a bs ↔ ∀ x < bs.length, m.read (a + x) = bs[x]? := by
  refine ⟨fun h x hx => ?_, fun h i => ?_⟩
  · rw [h ⟨x, hx⟩, List.getElem?_eq_getElem hx]; rfl
  · rw [h i i.isLt, List.getElem?_eq_getElem i.isLt]; rfl

/-- Holding bytes is holding the first part of them and, after it, the rest. -/
theorem holdsBytes_append {m : Memory} {a : Nat} {xs ys : List Byte} :
    holdsBytes m a (xs ++ ys) ↔ holdsBytes m a xs ∧ holdsBytes m (a + xs.length) ys := by
  simp only [holdsBytes_iff, List.length_append]
  refine ⟨fun h => ⟨fun x hx => ?_, fun x hx => ?_⟩, fun ⟨hl, hr⟩ x hx => ?_⟩
  · rw [h x (by omega), List.getElem?_append_left hx]
  · rw [Nat.add_assoc, h _ (by omega), List.getElem?_append_right (by omega), Nat.add_sub_cancel_left]
  · by_cases hx' : x < xs.length
    · rw [hl x hx', List.getElem?_append_left hx']
    · obtain ⟨y, rfl⟩ := Nat.exists_eq_add_of_le (Nat.le_of_not_lt hx')
      rw [← Nat.add_assoc, hr y (by omega), List.getElem?_append_right (by omega), Nat.add_sub_cancel_left]

/-- Reading blocks succeeds exactly where BUF holds their bytes. -/
theorem readBlocks_eq_ok_iff_holdsBytes {m : Memory} {a k : Nat} {Bs : List Block} :
    m.readBlocks a k = .ok Bs ↔ Bs.length = k ∧ holdsBytes m a (bytesOf Bs) := by
  rw [Memory.readBlocks_eq_ok, holdsBytes_iff, bytesOf_length]
  refine and_congr_right fun _ => ⟨fun h x hx => ?_, fun h j hj i hi => ?_⟩
  · have hread := h (x / 16) (by omega) (x % 16) (by omega)
    rwa [← bytesOf_getElem? (by omega) (by omega), Nat.add_assoc, Nat.div_add_mod] at hread
  · rw [Nat.add_assoc, h _ (by omega), bytesOf_getElem? hj hi]

theorem writeBytes_append (m : Memory) (a : Nat) (xs ys : List Byte) :
    m.writeBytes a (xs ++ ys) = (m.writeBytes a xs).writeBytes (a + xs.length) ys := by
  induction xs generalizing m a with
  | nil => rfl
  | cons x xs ih =>
    rw [List.cons_append, Memory.writeBytes, ih, List.length_cons, Nat.add_assoc, Nat.add_comm 1]
    rfl

/-- Storing blocks is storing their bytes. -/
theorem writeBlocks_eq_writeBytes (m : Memory) (a : Nat) (Bs : List Block) :
    m.writeBlocks a Bs = m.writeBytes a (bytesOf Bs) := by
  induction Bs generalizing m a with
  | nil => rfl
  | cons B Bs ih =>
    have happend := writeBytes_append m a B.toList (bytesOf Bs)
    rw [Vector.length_toList] at happend
    exact (ih _ _).trans happend.symm

/-- What BUF holds where blocks were stored from address 0. -/
theorem read_writeBlocks (m : Memory) (Bs : List Block) {x : Nat} (hx : x < 16 * Bs.length) :
    (m.writeBlocks 0 Bs).read x = (bytesOf Bs)[x]? := by
  rw [writeBlocks_eq_writeBytes, Memory.read_writeBytes, if_pos (by rw [bytesOf_length]; omega), Nat.sub_zero]

/-- Blocks read and stored again give the bytes they were read from. -/
theorem read_writeBlocks_of_readBlocks {m : Memory} (m' : Memory) {k x : Nat} {Bs : List Block}
    (h : m.readBlocks 0 k = .ok Bs) (hx : x < 16 * k) : (m'.writeBlocks 0 Bs).read x = m.read x := by
  obtain ⟨rfl, hheld⟩ := readBlocks_eq_ok_iff_holdsBytes.mp h
  have hread := holdsBytes_iff.mp hheld x (by rwa [bytesOf_length])
  rw [read_writeBlocks _ _ hx, ← hread, Nat.zero_add]

/-- Blocks stored are read back from every BUF that agrees on their bytes. -/
theorem readBlocks_of_read_eq_writeBlocks {m m' : Memory} {Bs : List Block}
    (h : ∀ x < 16 * Bs.length, m.read x = (m'.writeBlocks 0 Bs).read x) : m.readBlocks 0 Bs.length = .ok Bs := by
  refine readBlocks_eq_ok_iff_holdsBytes.mpr ⟨rfl, holdsBytes_iff.mpr fun x hx => ?_⟩
  rw [bytesOf_length] at hx
  rw [Nat.zero_add, h x hx, read_writeBlocks _ _ hx]

/-- Every byte of blocks stored is marked. -/
theorem exists_read_writeBlocks (m : Memory) (Bs : List Block) {x : Nat} (hx : x < 16 * Bs.length) :
    ∃ v, (m.writeBlocks 0 Bs).read x = some v :=
  ⟨_, (read_writeBlocks m Bs hx).trans (List.getElem?_eq_getElem (by rwa [bytesOf_length]))⟩

/-! ## Padding and unpadding -/

/-- Settles O39: the bounds of `padCount`, the next multiple of 16, and the listed values. -/
theorem padCountReachesTheNextBlock : Obligations.PadCountReachesTheNextBlock := by
  refine ⟨fun n hn => ⟨rfl, (padCount_bounds n).1, (padCount_bounds n).2, ?_, ?_⟩, by decide⟩ <;>
    (simp only [padCount, Config.block]; omega)

theorem legalLen_iff_lenEchnk {len : BitVec 13} {final : Bool} :
    legalLen (.echnk len final) ↔ lenEchnk len final = true := wellFormed_iff.symm

theorem lenBlocks_iff {len : BitVec 13} :
    lenBlocks len = true ↔ 16 ≤ len.toNat ∧ len.toNat ≤ 4096 ∧ len.toNat % 16 = 0 :=
  wellFormed_iff (i := .unpad len)

/-- A value up to 4096 fits OUT_LEN (R42). -/
theorem toNat_outLen {n : Nat} (h : n ≤ 4096) : (BitVec.ofNat 13 n).toNat = n := by
  rw [BitVec.toNat_ofNat, Nat.mod_eq_of_lt (by omega)]

/-- BUF holds the bytes just stored. -/
theorem holdsBytes_writeBytes (m : Memory) (a : Nat) (bs : List Byte) : holdsBytes (m.writeBytes a bs) a bs :=
  fun i => m.read_writeBytes_inside a i bs i.isLt

/-- Settles O40: the bytes stored are the padding of R222. -/
theorem padAppendsThePadding : Obligations.PadAppendsThePadding := by
  intro s len hlen
  have hl : lenPartial len = true := wellFormed_iff (i := .pad len).mpr hlen
  refine ⟨s.buf.writeBytes len.toNat (padBytes len.toNat), BitVec.ofNat 13 (len.toNat + padCount len.toNat), ?_,
    toNat_outLen (lenPartial_padded_le hl), holdsBytes_writeBytes _ _ _, fun x hx => ?_⟩
  · exact execPad_eq_next.mpr (.inr ⟨hl, by rw [complete_ok_eq]⟩)
  · exact Memory.read_writeBytes_outside _ _ _ _ (by rwa [padBytes_length])

/-- The unpad step at the last byte `v`: the subtraction of R224, which answers 0 where R236 raises PAD. -/
theorem unpadTail_eq_next_iff_read {n : Nat} {s t : State} :
    unpadTail n s = .next t ↔ ∃ v, s.buf.read (n - 1) = some v ∧
      t = complete (if n < v.toNat then .pad else .ok) { s with outLen := BitVec.ofNat 13 (n - v.toNat) } := by
  rw [unpadTail_eq_next]
  constructor
  · rintro ⟨v, hv, h⟩
    refine ⟨v[0], Memory.readVec_eq_ok.mp hv 0 Nat.one_pos, ?_⟩
    obtain ⟨hn, rfl⟩ | ⟨hn, rfl⟩ := h
    · rw [if_pos hn, Nat.sub_eq_zero_of_le hn.le]; rfl
    · rw [if_neg (Nat.not_lt.mpr hn)]
  · rintro ⟨v, hv, rfl⟩
    refine ⟨#v[v], Memory.readVec_eq_ok.mpr fun i hi => by simpa [Nat.lt_one_iff.mp hi] using hv, ?_⟩
    by_cases hn : n < v.toNat
    · rw [if_pos hn, Nat.sub_eq_zero_of_le hn.le]; exact .inl ⟨hn, rfl⟩
    · rw [if_neg hn]; exact .inr ⟨Nat.le_of_not_lt hn, rfl⟩

/-- Completion with PAD (R306). -/
theorem complete_pad_eq (s : State) :
    complete .pad s = { s with err := 5, errs := true, latch := none, busy := false } := by
  simp [complete, ErrCode.code]

/-- Settles O41: the unpad step at the last byte, in its two cases. -/
theorem unpadSubtractsTheLastByte : Obligations.UnpadSubtractsTheLastByte := by
  intro s len v hlen hv
  have hl : lenBlocks len = true := lenBlocks_iff.mpr hlen
  have hexec := execUnpad_eq_next.mpr (.inr ⟨hl, unpadTail_eq_next_iff_read.mpr ⟨v, hv, rfl⟩⟩)
  refine ⟨fun hle => ⟨_, toNat_outLen ((Nat.sub_le _ v.toNat).trans (lenBlocks_le hl)), ?_⟩,
    fun hlt => ?_⟩
  · rwa [if_neg (Nat.not_lt.mpr hle), complete_ok_eq] at hexec
  · rwa [if_pos hlt, Nat.sub_eq_zero_of_le hlt.le, complete_pad_eq] at hexec

/-! ## What a chunk command leaves -/

/-- What a chunk command makes of `s` before it completes (R233, R234): the blocks `Bs`, transformed by `f`, stored
over `m`; the chain they leave; OUT_LEN and PHASE. -/
def afterChunk (f : Chain → Block → Block × Chain) (final : Bool) (m : Memory) (o : BitVec 13) (Bs : List Block)
    (s : State) : State :=
  { s.withChain (runBlocks f s.chain Bs).2 with
    buf := m.writeBlocks 0 (runBlocks f s.chain Bs).1
    outLen := o
    phase := if final then .done else .chained }

section
variable (f : Chain → Block → Block × Chain) (final : Bool) (m : Memory) (o : BitVec 13) (Bs : List Block) (s : State)

@[simp] theorem afterChunk_buf :
    (afterChunk f final m o Bs s).buf = m.writeBlocks 0 (runBlocks f s.chain Bs).1 := rfl
@[simp] theorem afterChunk_outLen : (afterChunk f final m o Bs s).outLen = o := rfl

end

/-- How many bytes DCHNK takes off the chunk when its last decrypted byte is `v` (R224, R234). -/
def stripCount (final : Bool) (v : Byte) : Nat := if final then v.toNat else 0

/-- A legal ECHNK in its phase. -/
theorem execEchnk_chained_eq_next {len : BitVec 13} {final : Bool} {s t : State} (hl : lenEchnk len final = true)
    (hp : s.phase = .chained) :
    exec (.echnk len final) s = .next t ↔
      ∃ Bs, (paddedBuf len final s.buf).readBlocks 0 (paddedLen len final / 16) = .ok Bs ∧
        t = complete .ok (afterChunk encStep final (paddedBuf len final s.buf)
          (BitVec.ofNat 13 (paddedLen len final)) Bs s) :=
  execEchnk_eq_next.trans (by simp [hl, hp, afterChunk])

/-- A legal DCHNK in its phase; `v` is the last decrypted byte. -/
theorem execDchnk_chained_eq_next {len : BitVec 13} {final : Bool} {s t : State} (hl : lenBlocks len = true)
    (hp : s.phase = .chained) :
    exec (.dchnk len final) s = .next t ↔
      ∃ Bs v, s.buf.readBlocks 0 (len.toNat / 16) = .ok Bs ∧
        (s.buf.writeBlocks 0 (runBlocks decStep s.chain Bs).1).read (len.toNat - 1) = some v ∧
        t = complete (if len.toNat < stripCount final v then .pad else .ok) (afterChunk decStep final s.buf
          (BitVec.ofNat 13 (len.toNat - stripCount final v)) Bs s) := by
  rw [exec, execDchnk, hl, requireLen_true, requirePhase, if_pos hp, reading_eq_next]
  refine exists_congr fun Bs => ?_
  rw [exists_and_left]
  refine and_congr_right fun hB => ?_
  cases final with
  | true => exact unpadTail_eq_next_iff_read
  | false =>
    have hlast : ∃ v, (s.buf.writeBlocks 0 (runBlocks decStep s.chain Bs).1).read (len.toNat - 1) = some v := by
      have hlen : Bs.length = len.toNat / 16 := (Memory.readBlocks_eq_ok.mp hB).1
      have hl := lenBlocks_iff.mp hl
      exact exists_read_writeBlocks _ _ (by rw [runBlocks_length]; omega)
    simp [hlast, stripCount, afterChunk, hp]

/-! ## Block by block -/

/-- `f` draws a fresh stream into KS and transforms the block with it by `g` (R194, R195). -/
def FreshStep (f : Chain → Block → Block × Chain) (g : Block → Block → Block → Block × Block) : Prop :=
  ∀ c B, f c B = ((g B c.prev (drawBlock c.curr).1).1,
    ⟨(drawBlock c.curr).2, (g B c.prev (drawBlock c.curr).1).2, (drawBlock c.curr).1⟩)

theorem encStep_fresh : FreshStep encStep encBlock := fun _ _ => rfl

theorem decStep_fresh : FreshStep decStep decBlock := fun _ _ => rfl

/-- The stream of block `j`: the draws `16j + 1` to `16j + 16` from `c`. -/
def streamAt (c : DWord) (j : Nat) : Block := (drawBlock (lcgStep^[16 * j] c)).1

theorem streamsFrom_streamAt (c : DWord) : streamsFrom c (streamAt c) := by
  intro j i
  rw [streamAt, Fin.getElem_fin, drawBlock_getElem _ _ i.isLt, ← Function.iterate_add_apply,
    show (i : Nat) + 1 + 16 * j = 16 * j + i + 1 by omega]
  rfl

/-- The chaining value block `j` is transformed with: the one the blocks before it leave. -/
def prevAt (f : Chain → Block → Block × Chain) (c : Chain) (Bs : List Block) (j : Nat) : Block :=
  (runBlocks f c (Bs.take j)).2.prev

section
variable {f : Chain → Block → Block × Chain} {g : Block → Block → Block → Block × Block} (hf : FreshStep f g)
include hf

theorem FreshStep.curr (c : Chain) (B : Block) : (f c B).2.curr = lcgStep^[16] c.curr := by
  rw [hf, drawBlock_snd]

/-- Block `j` is transformed with its own chaining value and stream. -/
theorem FreshStep.at_take (c : Chain) {Bs : List Block} {j : Nat} (hj : j < Bs.length) :
    f (runBlocks f c (Bs.take j)).2 Bs[j] =
      ((g Bs[j] (prevAt f c Bs j) (streamAt c.curr j)).1,
        ⟨lcgStep^[16 * (j + 1)] c.curr, (g Bs[j] (prevAt f c Bs j) (streamAt c.curr j)).2, streamAt c.curr j⟩) := by
  have hcurr : (runBlocks f c (Bs.take j)).2.curr = lcgStep^[16 * j] c.curr := by
    rw [runBlocks_curr hf.curr, List.length_take_of_le hj.le]
  rw [hf, hcurr, drawBlock_snd, ← Function.iterate_add_apply, Nat.mul_succ, Nat.add_comm]
  rfl

/-- The chain a chunk leaves: every draw made, the last chaining value, and the last stream. -/
theorem FreshStep.runBlocks_snd (c : Chain) {Bs : List Block} (hBs : 0 < Bs.length) :
    (runBlocks f c Bs).2 =
      ⟨lcgStep^[16 * Bs.length] c.curr, prevAt f c Bs Bs.length, streamAt c.curr (Bs.length - 1)⟩ := by
  have hlast : Bs.length - 1 < Bs.length := Nat.sub_one_lt hBs.ne'
  have hchain := runBlocks_take_succ f c Bs _ hlast
  rw [hf.at_take c hlast, Nat.sub_add_cancel hBs, List.take_length] at hchain
  rw [prevAt, List.take_length, hchain]

/-- Each block stands transformed in its place, and leaves the chaining value of the next. -/
theorem FreshStep.blocks (m : Memory) (c : Chain) (Bs : List Block) (j : Fin Bs.length) :
    holdsBlock (m.writeBlocks 0 (runBlocks f c Bs).1) (16 * j) (g Bs[j] (prevAt f c Bs j) (streamAt c.curr j)).1 ∧
      prevAt f c Bs (j + 1) = (g Bs[j] (prevAt f c Bs j) (streamAt c.curr j)).2 := by
  refine ⟨fun i => ?_, ?_⟩
  · have hread := m.read_writeBlocks_inside 0 j i (runBlocks f c Bs).1 (by simp) i.isLt
    rw [Nat.zero_add, runBlocks_getElem f c Bs j j.isLt, hf.at_take c j.isLt] at hread
    exact hread
  · rw [prevAt, runBlocks_take_succ f c Bs j j.isLt, hf.at_take c j.isLt]
    rfl

/-- The state after a chunk command, register by register. -/
theorem FreshStep.afterChunk_eq (final : Bool) (m : Memory) (o : BitVec 13) {Bs : List Block} (hBs : 0 < Bs.length)
    (s : State) :
    afterChunk f final m o Bs s = { s with
      buf := m.writeBlocks 0 (runBlocks f s.chain Bs).1
      curr := lcgStep^[16 * Bs.length] s.curr
      prev := prevAt f s.chain Bs Bs.length
      ks := streamAt s.curr (Bs.length - 1)
      outLen := o
      phase := if final then .done else .chained } := by
  rw [afterChunk, hf.runBlocks_snd s.chain hBs]
  rfl

end

/-! ## ECHNK and DCHNK -/

/-- A legal chunk is at least one block after padding, and a legal chunk to decrypt (R105). -/
theorem paddedLen_range {len : BitVec 13} {final : Bool} (hl : lenEchnk len final = true) :
    16 ≤ paddedLen len final ∧ paddedLen len final ≤ 4096 ∧ paddedLen len final % 16 = 0 := by
  refine ⟨?_, paddedLen_le hl, (Nat.dvd_iff_mod_eq_zero).mp ⟨_, (paddedLen_blocks hl).symm⟩⟩
  cases final with
  | false => exact (lenBlocks_iff.mp hl).1
  | true => simp only [paddedLen, padCount, Config.block, if_true]; omega

/-- The padded chunk holds the chunk and, if final, the padding after it (R233). -/
theorem holdsBytes_paddedBuf {len : BitVec 13} (final : Bool) {m : Memory} {bytes : List Byte}
    (hlen : bytes.length = len.toNat) (h : holdsBytes m 0 bytes) :
    holdsBytes (paddedBuf len final m) 0 (bytes ++ if final then padOf len.toNat else []) := by
  refine holdsBytes_append.mpr ⟨fun i => ?_, ?_⟩
  · rw [read_paddedBuf_below final m (by omega)]
    exact h i
  · cases final with
    | false => exact fun i => i.elim0
    | true =>
      rw [hlen, Nat.zero_add]
      exact holdsBytes_writeBytes m len.toNat (padBytes len.toNat)

/-- Settles O42: the padded chunk is read as its blocks, and `afterChunk` is the state they leave. -/
theorem echnkEncryptsEveryBlock : Obligations.EchnkEncryptsEveryBlock := by
  intro s len final bytes Bs hlegal hp hlen hheld hBs
  have hl := legalLen_iff_lenEchnk.mp hlegal
  obtain ⟨hpos, hle, -⟩ := paddedLen_range hl
  have hpadded : paddedLen len final = 16 * Bs.length := by
    rw [← bytesOf_length, hBs, List.length_append, hlen]
    cases final <;> simp [paddedLen, padCount]
  have hread : (paddedBuf len final s.buf).readBlocks 0 (paddedLen len final / 16) = .ok Bs :=
    readBlocks_eq_ok_iff_holdsBytes.mpr ⟨by omega, hBs ▸ holdsBytes_paddedBuf final hlen hheld⟩
  refine ⟨_, _, prevAt encStep s.chain Bs, streamAt s.curr, ?_, (toNat_outLen hle).trans hpadded,
    streamsFrom_streamAt s.curr, rfl, encStep_fresh.blocks (paddedBuf len final s.buf) s.chain Bs, ?_⟩
  · refine (execEchnk_chained_eq_next hl hp).mpr ⟨Bs, hread, ?_⟩
    rw [encStep_fresh.afterChunk_eq _ _ _ (by omega), complete_ok_eq]
  · have hstores := hpadded ▸ storesIn_paddedBuf len final s.buf
    exact (hstores.trans (storesIn_writeBlocks _ (by rw [runBlocks_length]))).same

/-- Settles O43: `v` is the last byte of the decrypted blocks, and both values of F leave `afterChunk`. -/
theorem dchnkDecryptsEveryBlock : Obligations.DchnkDecryptsEveryBlock := by
  intro s len Bs hlegal hp hlen hheld
  have hl : lenBlocks len = true := lenBlocks_iff.mpr hlegal
  have hpos : 0 < Bs.length := by have := hlegal.1; omega
  have hread : s.buf.readBlocks 0 (len.toNat / 16) = .ok Bs :=
    readBlocks_eq_ok_iff_holdsBytes.mpr ⟨by omega, hheld⟩
  obtain ⟨v, hv⟩ := exists_read_writeBlocks s.buf (runBlocks decStep s.chain Bs).1 (x := len.toNat - 1)
    (by rw [runBlocks_length]; omega)
  have hexec := fun final => (execDchnk_chained_eq_next (final := final) hl hp).mpr ⟨Bs, v, hread, hv, rfl⟩
  simp only [decStep_fresh.afterChunk_eq _ _ _ hpos] at hexec
  refine ⟨_, _, prevAt decStep s.chain Bs, streamAt s.curr, streamsFrom_streamAt s.curr, rfl,
    decStep_fresh.blocks s.buf s.chain Bs, ?_, hv, ?_, fun hle => ⟨BitVec.ofNat 13 (len.toNat - v.toNat), ?_, ?_⟩,
    fun hlt => ?_⟩
  · exact (storesIn_writeBlocks (n := len.toNat) _ (by rw [runBlocks_length, hlen])).same
  · simpa [stripCount, complete_ok_eq, hp] using hexec false
  · exact toNat_outLen ((Nat.sub_le _ _).trans (lenBlocks_le hl))
  · simpa [stripCount, complete_ok_eq, Nat.not_lt.mpr hle] using hexec true
  · simpa [stripCount, complete_pad_eq, hlt, Nat.sub_eq_zero_of_le hlt.le] using hexec true

/-! ## Decrypting what was encrypted (R239) -/

/-- A block decrypted from the chain it was encrypted from comes back, and leaves the same chain. -/
theorem decStep_encStep {c c' : Chain} (hc : c'.curr = c.curr) (hp : c'.prev = c.prev) (B : Block) :
    decStep c' (encStep c B).1 = (B, (encStep c B).2) := by
  simp only [decStep, encStep, hc, hp, decBlock_encBlock]
  rfl

/-- So do a sequence of blocks. -/
theorem runBlocks_decStep_encStep {c c' : Chain} (hc : c'.curr = c.curr) (hp : c'.prev = c.prev) (Bs : List Block) :
    (runBlocks decStep c' (runBlocks encStep c Bs).1).1 = Bs ∧
      (runBlocks decStep c' (runBlocks encStep c Bs).1).2.curr = (runBlocks encStep c Bs).2.curr ∧
      (runBlocks decStep c' (runBlocks encStep c Bs).1).2.prev = (runBlocks encStep c Bs).2.prev := by
  induction Bs generalizing c c' with
  | nil => exact ⟨rfl, hc, hp⟩
  | cons B Bs ih =>
    simp only [runBlocks_cons, decStep_encStep hc hp]
    obtain ⟨hB, hrest⟩ := ih (c := (encStep c B).2) rfl rfl
    exact ⟨by rw [hB], hrest⟩

/-- What DCHNK takes off a padded chunk is what ECHNK put there (R222, R224). -/
theorem stripCount_of_paddedBuf {len : BitVec 13} {final : Bool} {m : Memory} {v : Byte}
    (hv : (paddedBuf len final m).read (paddedLen len final - 1) = some v) :
    len.toNat + stripCount final v = paddedLen len final := by
  cases final with
  | false => rfl
  | true =>
    obtain ⟨hpos, hle⟩ := padCount_bounds len.toNat
    have hread := m.read_writeBytes_inside len.toNat (padCount len.toNat - 1) (padBytes len.toNat)
      (by rw [padBytes_length]; omega)
    rw [← Nat.add_sub_assoc hpos] at hread
    obtain rfl := Option.some.inj (hv.symm.trans hread)
    simp only [stripCount, paddedLen, padBytes, List.getElem_replicate, if_true, BitVec.toNat_ofNat]
    omega

/-- BUF with the blocks of `m` encrypted is decrypted, from the chain they were encrypted from, to the bytes of `m`. -/
theorem readBlocks_decrypt_of_encrypted {m m' : Memory} {c c' : Chain} {k : Nat} {Bs : List Block}
    (hB : m.readBlocks 0 k = .ok Bs) (hc : c'.curr = c.curr) (hp : c'.prev = c.prev)
    (hm : ∀ x < 16 * k, m'.read x = (m.writeBlocks 0 (runBlocks encStep c Bs).1).read x) :
    ∃ Cs, m'.readBlocks 0 k = .ok Cs ∧
      (runBlocks decStep c' Cs).2.curr = (runBlocks encStep c Bs).2.curr ∧
      (runBlocks decStep c' Cs).2.prev = (runBlocks encStep c Bs).2.prev ∧
      ∀ x < 16 * k, (m'.writeBlocks 0 (runBlocks decStep c' Cs).1).read x = m.read x := by
  obtain ⟨hdec, hcurr, hprev⟩ := runBlocks_decStep_encStep hc hp Bs
  have hlen : (runBlocks encStep c Bs).1.length = k := by rw [runBlocks_length, (Memory.readBlocks_eq_ok.mp hB).1]
  refine ⟨(runBlocks encStep c Bs).1, ?_, hcurr, hprev, fun x hx => ?_⟩
  · exact hlen ▸ readBlocks_of_read_eq_writeBlocks (hlen.symm ▸ hm)
  · rw [hdec, read_writeBlocks_of_readBlocks m' hB hx]

/-- Settles O44: DCHNK gives back the padded chunk (`readBlocks_decrypt_of_encrypted`), and takes off what the padding
added. -/
theorem decryptingAChunkRestoresIt : Obligations.DecryptingAChunkRestoresIt := by
  intro s t u len final hp ht herr hup hcurr hprev hbuf
  obtain ⟨-, rfl⟩ | ⟨hl, -⟩ := execEchnk_eq_next.mp ht
  · simp [ErrCode.code] at herr
  obtain ⟨Bs, hB, rfl⟩ := (execEchnk_chained_eq_next hl hp).mp ht
  have hrange := paddedLen_range hl
  have hout : (BitVec.ofNat 13 (paddedLen len final)).toNat = paddedLen len final := toNat_outLen hrange.2.1
  have hblocks : 16 * (paddedLen len final / 16) = paddedLen len final := paddedLen_blocks hl
  simp only [complete_buf, complete_outLen, afterChunk_buf, afterChunk_outLen, hout] at hbuf ⊢
  obtain ⟨Cs, hC, hcurr', hprev', hback⟩ := readBlocks_decrypt_of_encrypted (c := s.chain) (c' := u.chain) hB hcurr
    hprev (hblocks.symm ▸ hbuf)
  have hCs : Cs.length = paddedLen len final / 16 := (Memory.readBlocks_eq_ok.mp hC).1
  obtain ⟨v, hv⟩ := exists_read_writeBlocks u.buf (runBlocks decStep u.chain Cs).1 (x := paddedLen len final - 1)
    (by rw [runBlocks_length]; omega)
  have hstrip := stripCount_of_paddedBuf ((hback _ (by omega)).symm.trans hv)
  have hexec := (execDchnk_chained_eq_next (final := final) (lenBlocks_iff.mpr (hout.symm ▸ hrange)) hup).mpr
    ⟨Cs, v, by rwa [hout], by rwa [hout], rfl⟩
  rw [hout, if_neg (by omega), ← hstrip, Nat.add_sub_cancel] at hexec
  exact ⟨_, hstrip ▸ hexec, rfl, by simp, hprev', hcurr', fun x hx =>
    (hback x (by omega)).trans (read_paddedBuf_below final s.buf hx)⟩

/-! ## A chunk cut in two (R238) -/

theorem runBlocks_append (f : Chain → Block → Block × Chain) (c : Chain) (Bs Cs : List Block) :
    runBlocks f c (Bs ++ Cs) =
      ((runBlocks f c Bs).1 ++ (runBlocks f (runBlocks f c Bs).2 Cs).1,
        (runBlocks f (runBlocks f c Bs).2 Cs).2) := by
  induction Bs generalizing c with
  | nil => rfl
  | cons B Bs ih => simp only [List.cons_append, runBlocks_cons, ih]

/-- Blocks read in two parts are the blocks read at once. -/
theorem readBlocks_eq_append {m m₁ m₂ : Memory} {k₁ k₂ : Nat} {Bs Bs₁ Bs₂ : List Block}
    (h : m.readBlocks 0 (k₁ + k₂) = .ok Bs) (h₁ : m₁.readBlocks 0 k₁ = .ok Bs₁) (h₂ : m₂.readBlocks 0 k₂ = .ok Bs₂)
    (hm₁ : ∀ x < 16 * k₁, m₁.read x = m.read x) (hm₂ : ∀ x < 16 * k₂, m₂.read x = m.read (16 * k₁ + x)) :
    Bs = Bs₁ ++ Bs₂ := by
  obtain ⟨hl₁, hB₁⟩ := readBlocks_eq_ok_iff_holdsBytes.mp h₁
  obtain ⟨hl₂, hB₂⟩ := readBlocks_eq_ok_iff_holdsBytes.mp h₂
  rw [holdsBytes_iff, bytesOf_length] at hB₁ hB₂
  refine Except.ok.inj (h.symm.trans (readBlocks_eq_ok_iff_holdsBytes.mpr ⟨by rw [List.length_append, hl₁, hl₂], ?_⟩))
  rw [bytesOf_append, holdsBytes_append, holdsBytes_iff, holdsBytes_iff, bytesOf_length, bytesOf_length]
  refine ⟨fun x hx => ?_, fun x hx => ?_⟩
  · rw [← hB₁ x hx, Nat.zero_add, hm₁ x (by omega)]
  · rw [← hB₂ x hx, Nat.zero_add, Nat.zero_add, hm₂ x (by omega), hl₁]

/-- A chunk of `n` bytes run as its first `n₁` bytes and then, from the chain they leave, the other `n₂`, comes to the
same chain and the same bytes as the chunk run at once. -/
theorem runBlocks_split {f : Chain → Block → Block × Chain} {c c₂ : Chain} {m m₁ m₂ : Memory} {n n₁ n₂ : Nat}
    {Bs Bs₁ Bs₂ : List Block} (hn : n = n₁ + n₂) (h₁ : n₁ % 16 = 0) (h₂ : n₂ % 16 = 0)
    (hB : m.readBlocks 0 (n / 16) = .ok Bs) (hB₁ : m₁.readBlocks 0 (n₁ / 16) = .ok Bs₁)
    (hB₂ : m₂.readBlocks 0 (n₂ / 16) = .ok Bs₂) (hm₁ : ∀ x < n₁, m₁.read x = m.read x)
    (hm₂ : ∀ x < n₂, m₂.read x = m.read (n₁ + x)) (hc : c₂ = (runBlocks f c Bs₁).2) :
    (runBlocks f c₂ Bs₂).2 = (runBlocks f c Bs).2 ∧
      (∀ x < n₁, (m₁.writeBlocks 0 (runBlocks f c Bs₁).1).read x = (m.writeBlocks 0 (runBlocks f c Bs).1).read x) ∧
      ∀ x < n₂, (m₂.writeBlocks 0 (runBlocks f c₂ Bs₂).1).read x =
        (m.writeBlocks 0 (runBlocks f c Bs).1).read (n₁ + x) := by
  obtain ⟨k₁, rfl⟩ := Nat.dvd_of_mod_eq_zero h₁
  obtain ⟨k₂, rfl⟩ := Nat.dvd_of_mod_eq_zero h₂
  rw [show n / 16 = k₁ + k₂ by omega] at hB
  rw [Nat.mul_div_cancel_left _ (by decide)] at hB₁ hB₂
  obtain rfl := readBlocks_eq_append hB hB₁ hB₂ hm₁ hm₂
  have hl₁ : (runBlocks f c Bs₁).1.length = k₁ := by rw [runBlocks_length, (Memory.readBlocks_eq_ok.mp hB₁).1]
  have hl₂ : (runBlocks f c₂ Bs₂).1.length = k₂ := by rw [runBlocks_length, (Memory.readBlocks_eq_ok.mp hB₂).1]
  rw [runBlocks_append, ← hc]
  refine ⟨rfl, fun x hx => ?_, fun x hx => ?_⟩
  · rw [read_writeBlocks _ _ (by omega), read_writeBlocks _ _ (by rw [List.length_append]; omega), bytesOf_append,
      List.getElem?_append_left (by rwa [bytesOf_length, hl₁])]
  · rw [read_writeBlocks _ _ (by omega), read_writeBlocks _ _ (by rw [List.length_append]; omega), bytesOf_append,
      ← hl₁, ← bytesOf_length, List.getElem?_append_right (Nat.le_add_right _ _), Nat.add_sub_cancel_left]

/-- Padding ends at the same place whether the blocks before it are in the chunk or not (R222). -/
theorem paddedLen_split {len len₁ len₂ : BitVec 13} (final : Bool) (hlen : len.toNat = len₁.toNat + len₂.toNat)
    (h₁ : len₁.toNat % 16 = 0) : paddedLen len final = len₁.toNat + paddedLen len₂ final := by
  cases final <;> simp [paddedLen, padCount] <;> omega

/-- The padded rest of a chunk is the rest of the padded chunk. -/
theorem read_paddedBuf_split {len len₁ len₂ : BitVec 13} {final : Bool} {m m' : Memory}
    (hlen : len.toNat = len₁.toNat + len₂.toNat) (h₁ : len₁.toNat % 16 = 0)
    (hm : ∀ x < len₂.toNat, m'.read x = m.read (len₁.toNat + x)) {x : Nat} (hx : x < paddedLen len₂ final) :
    (paddedBuf len₂ final m').read x = (paddedBuf len final m).read (len₁.toNat + x) := by
  by_cases hlt : x < len₂.toNat
  · rw [read_paddedBuf_below final m' hlt, read_paddedBuf_below final m (by omega), hm x hlt]
  · cases final with
    | false => exact absurd hx hlt
    | true =>
      have hcount : padCount len.toNat = padCount len₂.toNat := by simp only [padCount, Config.block]; omega
      simp only [paddedLen, if_true] at hx
      simp only [paddedBuf, if_true, Memory.read_writeBytes, padBytes, List.length_replicate, hcount]
      rw [if_pos (by omega), if_pos (by omega), hlen, Nat.add_sub_add_left]

/-- The lengths of a decrypted chunk add up where the last part is long enough for the bytes taken off it. -/
theorem outLen_strip_split {n n₁ n₂ k : Nat} (hn : n = n₁ + n₂) (hle : n ≤ 4096) (hk : k ≤ n₂) :
    (BitVec.ofNat 13 (n - k)).toNat = (BitVec.ofNat 13 n₁).toNat + (BitVec.ofNat 13 (n₂ - k)).toNat := by
  rw [toNat_outLen (by omega), toNat_outLen (by omega), toNat_outLen (by omega)]
  omega

section
variable {s t u v w : State} {len len₁ len₂ : BitVec 13} {final : Bool} (hp : s.phase = .chained)
  (hlen : len.toNat = len₁.toNat + len₂.toNat) (hm : ∀ x < len₂.toNat, w.buf.read x = s.buf.read (len₁.toNat + x))
  (hwchain : w.chain = u.chain) (hwphase : w.phase = u.phase)
include hp hlen hm hwchain hwphase

/-- ECHNK cut in two: both orders run the same blocks of the padded chunk. -/
theorem echnk_split (hl : lenEchnk len final = true) (hl₁ : lenEchnk len₁ false = true)
    (hl₂ : lenEchnk len₂ final = true) (ht : exec (.echnk len final) s = .next t)
    (hu : exec (.echnk len₁ false) s = .next u) (hv : exec (.echnk len₂ final) w = .next v) :
    v.chain = t.chain ∧ v.phase = t.phase ∧ t.outLen.toNat = u.outLen.toNat + v.outLen.toNat ∧
      (∀ x < len₁.toNat, u.buf.read x = t.buf.read x) ∧
      ∀ x < v.outLen.toNat, v.buf.read x = t.buf.read (len₁.toNat + x) := by
  obtain ⟨Bs, hB, rfl⟩ := (execEchnk_chained_eq_next hl hp).mp ht
  obtain ⟨Bs₁, hB₁, rfl⟩ := (execEchnk_chained_eq_next hl₁ hp).mp hu
  obtain ⟨Bs₂, hB₂, rfl⟩ := (execEchnk_chained_eq_next hl₂ hwphase).mp hv
  have hmod := (paddedLen_range hl₁).2.2
  have hpadded := paddedLen_split final hlen hmod
  obtain ⟨hchain, hfirst, hrest⟩ := runBlocks_split hpadded hmod (paddedLen_range hl₂).2.2 hB hB₁ hB₂
    (fun x hx => (read_paddedBuf_below final s.buf (by rw [hlen]; exact Nat.lt_add_right _ hx)).symm)
    (fun x hx => read_paddedBuf_split hlen hmod hm hx) hwchain
  have hout : (BitVec.ofNat 13 (paddedLen len₂ final)).toNat = paddedLen len₂ final :=
    toNat_outLen (paddedLen_range hl₂).2.1
  refine ⟨hchain, rfl, ?_, hfirst, fun x hx => hrest x (hout ▸ hx)⟩
  simp only [complete_outLen, afterChunk_outLen, hout, toNat_outLen (paddedLen_range hl).2.1,
    toNat_outLen (paddedLen_range hl₁).2.1]
  exact hpadded

/-- DCHNK cut in two: both orders run the same blocks, so the last byte is the same one, and what is taken off the
second part is taken off the whole. -/
theorem dchnk_split (hl : lenBlocks len = true) (hl₁ : lenBlocks len₁ = true) (hl₂ : lenBlocks len₂ = true)
    (ht : exec (.dchnk len final) s = .next t) (hu : exec (.dchnk len₁ false) s = .next u)
    (hv : exec (.dchnk len₂ final) w = .next v) :
    v.chain = t.chain ∧ v.phase = t.phase ∧
      (v.err = 0 → t.err = 0 ∧ t.outLen.toNat = u.outLen.toNat + v.outLen.toNat) ∧
      (∀ x < len₁.toNat, u.buf.read x = t.buf.read x) ∧
      ∀ x < len₂.toNat, v.buf.read x = t.buf.read (len₁.toNat + x) := by
  obtain ⟨Bs, a, hB, ha, rfl⟩ := (execDchnk_chained_eq_next hl hp).mp ht
  obtain ⟨Bs₁, b, hB₁, -, rfl⟩ := (execDchnk_chained_eq_next hl₁ hp).mp hu
  obtain ⟨Bs₂, c, hB₂, hc, rfl⟩ := (execDchnk_chained_eq_next hl₂ hwphase).mp hv
  obtain ⟨hpos, -, hmod⟩ := lenBlocks_iff.mp hl₂
  obtain ⟨hchain, hfirst, hrest⟩ := runBlocks_split hlen (lenBlocks_iff.mp hl₁).2.2 hmod hB hB₁ hB₂
    (fun _ _ => rfl) hm hwchain
  have hlast := hrest (len₂.toNat - 1) (by omega)
  rw [← Nat.add_sub_assoc (by omega), ← hlen] at hlast
  obtain rfl := Option.some.inj (hc.symm.trans (hlast.trans ha))
  refine ⟨hchain, rfl, fun herr => ?_, hfirst, hrest⟩
  have hle : stripCount final c ≤ len₂.toNat := by
    by_contra hlt
    simp [Nat.lt_of_not_le hlt, ErrCode.code] at herr
  refine ⟨?_, outLen_strip_split hlen (lenBlocks_le hl) hle⟩
  rw [if_neg (by omega)]
  rfl

end

/-- Settles O45: the second part starts from the chain and PHASE of the first. -/
theorem splittingAChunkChangesNothing : Obligations.SplittingAChunkChangesNothing := by
  intro s t u v len len₁ len₂ final m hp hlen hm
  refine ⟨fun hl hl₁ hl₂ ht hu hv => ?_, fun hl hl₁ hl₂ ht hu hv => ?_⟩
  · rw [legalLen_iff_lenEchnk] at hl hl₁ hl₂
    obtain ⟨hchain, hrest⟩ := echnk_split (u := u) (w := { u with buf := m }) hp hlen hm rfl rfl hl hl₁ hl₂ ht
      hu hv
    exact ⟨congrArg Chain.curr hchain, congrArg Chain.prev hchain, congrArg Chain.ks hchain, hrest⟩
  · obtain ⟨hchain, hrest⟩ := dchnk_split (u := u) (w := { u with buf := m }) hp hlen hm rfl rfl
      (lenBlocks_iff.mpr hl) (lenBlocks_iff.mpr hl₁) (lenBlocks_iff.mpr hl₂) ht hu hv
    exact ⟨congrArg Chain.curr hchain, congrArg Chain.prev hchain, congrArg Chain.ks hchain, hrest⟩

end Sys2Proof.Machine

/-!
SUPPORT and PROOFS for spec/44_seed_derivation.md. First one hash step as a product and a sum, and on the low byte; then
the seed of a password, and the hash commands from the step.
-/

namespace Sys2Proof.Machine

open Sys2Proof.Certificates

/-! ## One hash step -/

/-- The two shifts and the subtraction are one product modulo 2^64 (R260). -/
theorem hashStep_eq (signed : Bool) (h : DWord) (c : Byte) : hashStep signed h c = h * 65599 + ext64 signed c := by
  have hshift1 : h <<< Config.hashS1 = h * 64 := BitVec.shiftLeft_eq_mul_twoPow h 6
  have hshift2 : h <<< Config.hashS2 = h * 65536 := BitVec.shiftLeft_eq_mul_twoPow h 16
  rw [hashStep, hshift1, hshift2]
  ring

/-- The hash step with zero extension, the default (R261). -/
theorem hashStep_false : hashStep false = fun h c => h * 65599 + c.zeroExtend 64 := funext₂ (hashStep_eq false)

/-- The hash step with sign extension (R261). -/
theorem hashStep_true : hashStep true = fun h c => h * 65599 + c.signExtend 64 := funext₂ (hashStep_eq true)

/-- Either extension keeps the byte as the low byte (R261). -/
theorem drawnByte_ext64 (signed : Bool) (c : Byte) : drawnByte (ext64 signed c) = c := by
  refine BitVec.eq_of_getLsbD_eq fun i hi => ?_
  have hi64 : i < 64 := by omega
  cases signed with
  | false => simp [drawnByte, ext64, hi, hi64]
  | true => simp [drawnByte, ext64, BitVec.getElem_signExtend, hi, hi64]

/-- The low byte of the hash follows a recurrence of its own, since 65599 mod 256 = 63 (R262). -/
theorem drawnByte_hashStep (signed : Bool) (h : DWord) (c : Byte) :
    drawnByte (hashStep signed h c) = affine 63 c (drawnByte h) := by
  have hext : (ext64 signed c).toNat % 256 = c.toNat := by rw [← drawnByte_toNat, drawnByte_ext64]
  apply BitVec.eq_of_toNat_eq
  simp only [hashStep_eq, drawnByte_toNat, affine, BitVec.toNat_add, BitVec.toNat_mul, Config.seedW,
    show (65599 : DWord).toNat = 65599 from rfl, show (63 : Byte).toNat = 63 from rfl]
  omega

/-! ## The seed of a password -/

/-- The low byte of a seed is a fold over the bytes in which no extension occurs (R262). -/
theorem drawnByte_seedOf (signed : Bool) (p : List Byte) :
    drawnByte (seedOf signed p) = p.foldl (fun b c => affine 63 c b) 0 :=
  (List.foldl_hom drawnByte fun h c => (drawnByte_hashStep signed h c).symm).symm

/-- Settles O23: the seed is a fold of hash steps, and its low byte is the same fold for both extensions. -/
theorem extensionNeverChangesTheLowHashByte : Obligations.ExtensionNeverChangesTheLowHashByte := fun p =>
  ⟨congrArg (p.foldl · 0) hashStep_false, congrArg (p.foldl · 0) hashStep_true,
    (drawnByte_seedOf true p).trans (drawnByte_seedOf false p).symm⟩

/-! ## The hash commands -/

/-- Settles O21: one assignment and the completion, the hash step with the default extension. -/
theorem hashCommandsComplete : Obligations.HashCommandsComplete := fun s c =>
  ⟨finish_eq _, (finish_eq _).trans (by rw [Config.pwCharSigned, hashStep_false])⟩

/-- Bytes that BUF holds are read as the vector of them. -/
theorem readVec_of_holdsBytes {m : Memory} {a n : Nat} {bs : List Byte} (hlen : bs.length = n)
    (h : holdsBytes m a bs) : m.readVec a n = .ok ⟨bs.toArray, hlen⟩ := by
  subst hlen
  exact Memory.readVec_eq_ok.mpr fun i hi => h ⟨i, hi⟩

/-- Settles O22: the bytes read are the bytes held, and the fold over them takes hash steps. -/
theorem hbufHashesThePrefixInOrder : Obligations.HbufHashesThePrefixInOrder := by
  intro s len bytes hlen hle hheld
  have hl : lenPrefix len = true := wellFormed_iff (i := .hbuf len).mpr hle
  exact execHbuf_eq_next.mpr (.inr ⟨hl, _, readVec_of_holdsBytes hlen hheld,
    by rw [complete_ok_eq, Config.pwCharSigned, hashStep_false]; rfl⟩)

end Sys2Proof.Machine

/-!
PROOFS for spec/45_control.md. Each control command is a completion with OK: NOP of the state as it is, SRST of the state
after the soft reset.
-/

namespace Sys2Proof.Machine

/-- Settles O19: NOP is the completion with OK of the state it finds. -/
theorem nopOnlyCompletes : Obligations.NopOnlyCompletes := fun s => finish_eq s

/-- Settles O20: SRST is the completion with OK after the soft reset to the values of R55, BUF kept (R341). -/
theorem srstResetsRegistersAndKeepsBuf : Obligations.SrstResetsRegistersAndKeepsBuf := fun s =>
  finish_eq (softReset s)

end Sys2Proof.Machine

/-!
SUPPORT and PROOFS for spec/60_exceptions.md. First completion with an error code, and the words that are no command;
then the checks of R310 in their order: what a command answers that fails its LEN check or its PHASE check, and what one
answers that passes both (`Served`). The statements about each code and the model fault follow from these.
-/

namespace Sys2Proof.Machine

open Sys2Proof.Certificates

/-! ## Completion with an error code -/

/-- Completion with a nonzero code writes ERR, ERRS, LATCH and BUSY, and nothing else (R300). -/
theorem complete_error_eq {c : ErrCode} (hc : c ≠ .ok) (s : State) :
    complete c s = { s with err := c.code, errs := true, latch := none, busy := false } := by
  simp [complete, hc]

/-- The next state of a command that raised an error (R300). -/
theorem raiseError_eq {c : ErrCode} (hc : c ≠ .ok) (s : State) :
    raiseError c s = .next { s with err := c.code, errs := true, latch := none, busy := false } := by
  rw [raiseError, complete_error_eq hc]

/-- Settles O5: the word decodes to BADOP, and its completion is the raising of that code. -/
theorem unassignedOpcodeCompletesWithBadOp : Obligations.UnassignedOpcodeCompletesWithBadOp := by
  intro s w hc hop
  rw [step_of_completes hc, completeWord, decode_eq_badOp.mpr hop]
  exact raiseError_eq (by decide) _

/-- Settles O6: the word decodes to RSVD, and its completion is the raising of that code. -/
theorem reservedBitsCompleteWithRsvd : Obligations.ReservedBitsCompleteWithRsvd := by
  intro s w hc hop hfit
  rw [step_of_completes hc, completeWord, decode_eq_rsvd.mpr ⟨hop, hfit⟩]
  exact raiseError_eq (by decide) _

/-- Only a nonzero code writes ERRS (R300). -/
theorem complete_errs_of_err_eq_zero {c : ErrCode} {u : State} (h : (complete c u).err = 0) :
    (complete c u).errs = u.errs := by
  cases c with
  | ok => simp
  | badOp | rsvd | len | seq | pad => exact absurd h (by simp [ErrCode.code])

theorem ErrCode.code_le (c : ErrCode) : c.code.toNat ≤ 5 := by cases c <;> decide

/-- Settles O10: every command ends in `complete`, and only SRST reaches it with another ERRS. -/
theorem everyCompletionWritesStatus : Obligations.EveryCompletionWritesStatus := by
  intro i s t h
  by_cases hi : i = .srst
  · subst hi
    obtain rfl := finish_eq_next.mp h
    exact ⟨rfl, rfl, ErrCode.code_le .ok, complete_errs_of_err, fun _ => rfl⟩
  · obtain ⟨hsrst, -⟩ | ⟨c, u, rfl, hw⟩ := exec_cases h
    · exact absurd hsrst hi
    · refine ⟨rfl, rfl, c.code_le, complete_errs_of_err, fun herr => ?_⟩
      rw [if_neg hi, complete_errs_of_err_eq_zero herr, hw.errs]

/-! ## Commands that fail a check -/

/-- Every command begins with its LEN check, which passes where it has no LEN (R310). -/
theorem exists_exec_eq_requireLen (i : Instr) (s : State) : ∃ k, exec i s = requireLen i.wellFormed s k := by
  cases i with
  | hbuf | nextn | pad | unpad | echnk | dchnk => exact ⟨_, rfl⟩
  | _ => exact ⟨_, (requireLen_true s _).symm⟩

/-- A command with an illegal LEN only raises LEN (R304). -/
theorem exec_of_illegalLen {i : Instr} (hl : ¬ legalLen i) (s : State) : exec i s = raiseError .len s := by
  obtain ⟨k, hk⟩ := exists_exec_eq_requireLen i s
  rw [hk, Bool.eq_false_of_not_eq_true (mt wellFormed_iff.mp hl), requireLen_false]

theorem requirePhase_of_eq {p : Phase} {s : State} (h : s.phase = p) (k : Result) : requirePhase p s k = k := if_pos h

theorem requirePhase_of_ne {p : Phase} {s : State} (h : s.phase ≠ p) (k : Result) :
    requirePhase p s k = raiseError .seq s := if_neg h

/-- A command with a legal LEN in a wrong phase only raises SEQ (R305). -/
theorem exec_of_wrongPhase {i : Instr} {s : State} (hl : legalLen i) (hp : ¬ phaseOk i s.phase) :
    exec i s = raiseError .seq s := by
  have hwf := wellFormed_iff.mpr hl
  cases i with
  | cinit => exact requirePhase_of_ne hp _
  | echnk len final =>
    have hlen : lenEchnk len final = true := hwf
    rw [exec, execEchnk, hlen, requireLen_true, requirePhase_of_ne hp]
  | dchnk len final =>
    have hlen : lenBlocks len = true := hwf
    rw [exec, execDchnk, hlen, requireLen_true, requirePhase_of_ne hp]
  | _ => exact absurd trivial hp

/-! ## Commands that pass their checks -/

/-- What a command that reads `n` bytes of `m` at `a` answers once its checks are passed (R310, steps 5 to 7). -/
inductive Served (m : Memory) (a n : Nat) (r : Result) : Prop
  /-- It stops at the lowest unmarked byte of the range (R309; log 2). -/
  | stops {e : Nat} (hread : m.readVec a n = .error e) (hr : r = .fault (.unwrittenBufRead e))
  /-- It reads the range and completes with OK or PAD. -/
  | works {v : Vector Byte n} {c : ErrCode} {u : State} (hread : m.readVec a n = .ok v) (hc : c = .ok ∨ c = .pad)
      (hr : r = .next (complete c u))

/-- The two checks let a served command through. -/
theorem Served.requireLen {m : Memory} {a n : Nat} {l : Bool} {s : State} {k : Result} (hl : l = true)
    (h : Served m a n k) : Served m a n (requireLen l s k) := by rwa [hl, requireLen_true]

theorem Served.requirePhase {m : Memory} {a n : Nat} {p : Phase} {s : State} {k : Result} (hp : s.phase = p)
    (h : Served m a n k) : Served m a n (requirePhase p s k) := by rwa [requirePhase_of_eq hp]

/-- A command that reads nothing and raises nothing. -/
theorem served_finish {m : Memory} {a : Nat} {u : State} : Served m a 0 (finish u) := .works rfl (.inl rfl) rfl

/-- A command is served that stops where its range cannot be read, whatever it reads the bytes as, and completes
where they are read. -/
theorem served_reading {α : Type} {m : Memory} {a n : Nat} {r : Except Nat α} {k : α → Result}
    (hr : ∀ e, r = .error e ↔ m.readVec a n = .error e)
    (hk : ∀ x, r = .ok x → ∃ c u, (c = .ok ∨ c = .pad) ∧ k x = .next (complete c u)) :
    Served m a n (reading r k) := by
  cases r with
  | error e => exact .stops ((hr e).mp rfl) rfl
  | ok x =>
    obtain ⟨c, u, hc, hx⟩ := hk x rfl
    cases hv : m.readVec a n with
    | error e => cases (hr e).mpr hv
    | ok v => exact .works hv hc hx

/-- A command that reads one range and raises nothing. -/
theorem served_reading_finish {m : Memory} {a n : Nat} {f : Vector Byte n → State} :
    Served m a n (reading (m.readVec a n) fun v => finish (f v)) :=
  served_reading (fun _ => Iff.rfl) fun _ _ => ⟨.ok, _, .inl rfl, rfl⟩

/-- The unpad step completes where its last byte is marked. -/
theorem unpadTail_completes {n : Nat} {s : State} {v : Byte} (hv : s.buf.read (n - 1) = some v) :
    ∃ c u, (c = .ok ∨ c = .pad) ∧ unpadTail n s = .next (complete c u) :=
  ⟨_, _, (ite_eq_or_eq _ _ _).symm, unpadTail_eq_next_iff_read.mpr ⟨v, hv, rfl⟩⟩

theorem served_unpadTail (n : Nat) (s : State) : Served s.buf (n - 1) 1 (unpadTail n s) := by
  cases hv : s.buf.readVec (n - 1) 1 with
  | error e => exact .stops hv (by rw [unpadTail, hv, reading_error])
  | ok v =>
    obtain ⟨c, u, hc, hr⟩ := unpadTail_completes (Memory.readVec_eq_ok.mp hv 0 Nat.one_pos)
    exact .works hv hc hr

/-- Blocks cannot be read exactly where their range cannot; the lowest unmarked address is reported. -/
theorem readBlocks_eq_error {m : Memory} {a k e : Nat} :
    m.readBlocks a k = .error e ↔ m.readVec a (16 * k) = .error e := by
  have hmp : ∀ {e}, m.readBlocks a k = .error e → m.readVec a (16 * k) = .error e := fun h =>
    Memory.readVec_eq_error.mpr (Memory.readBlocks_error_bound h)
  refine ⟨hmp, fun h => ?_⟩
  cases hB : m.readBlocks a k with
  | error e' => rw [Except.error.inj ((hmp hB).symm.trans h)]
  | ok Bs =>
    obtain ⟨hle, hlt, hnone, -⟩ := Memory.readVec_eq_error.mp h
    obtain ⟨hlen, hheld⟩ := readBlocks_eq_ok_iff_holdsBytes.mp hB
    have hread := holdsBytes_iff.mp hheld (e - a) (by rw [bytesOf_length]; omega)
    rw [Nat.add_sub_cancel' hle, hnone, eq_comm, List.getElem?_eq_none_iff, bytesOf_length] at hread
    omega

/-- The padding of a chunk is marked (R233). -/
theorem isSome_read_paddedBuf {len : BitVec 13} {final : Bool} (m : Memory) {x : Nat} (hx : len.toNat ≤ x)
    (hlt : x < paddedLen len final) : ((paddedBuf len final m).read x).isSome := by
  cases final with
  | false => exact absurd hlt (Nat.not_lt.mpr hx)
  | true =>
    obtain ⟨i, rfl⟩ := Nat.exists_eq_add_of_le hx
    have hi : i < (padBytes len.toNat).length := by
      simp only [paddedLen, if_true] at hlt
      rw [padBytes_length]
      omega
    exact Option.isSome_of_eq_some (m.read_writeBytes_inside len.toNat i _ hi)

theorem le_paddedLen (len : BitVec 13) (final : Bool) : len.toNat ≤ paddedLen len final := by
  cases final <;> simp [paddedLen]

/-- Reading the padded chunk stops exactly where reading the chunk does (R233). -/
theorem readVec_paddedBuf_eq_error {len : BitVec 13} {final : Bool} {m : Memory} {e : Nat} :
    (paddedBuf len final m).readVec 0 (paddedLen len final) = .error e ↔ m.readVec 0 len.toNat = .error e := by
  simp only [Memory.readVec_eq_error, Nat.zero_add]
  have hle := le_paddedLen len final
  by_cases he : e < len.toNat
  · have hlow : ∀ x ≤ e, (paddedBuf len final m).read x = m.read x := fun x hx =>
      read_paddedBuf_below final m (by omega)
    simp +contextual [he, he.trans_le hle, hlow, Nat.le_of_lt]
  · refine iff_of_false (fun ⟨_, hlt, hnone, _⟩ => ?_) (fun ⟨_, hlt, _⟩ => he hlt)
    have hmark := isSome_read_paddedBuf m (Nat.le_of_not_lt he) hlt
    simp [hnone] at hmark

/-- ECHNK past its checks: it reads the padded chunk as blocks. -/
theorem served_echnk {len : BitVec 13} {final : Bool} {s : State} (hl : lenEchnk len final = true)
    (hp : s.phase = .chained) : Served s.buf 0 len.toNat (execEchnk len final s) := by
  refine .requireLen hl (.requirePhase hp (served_reading (fun e => ?_) fun _ _ => ⟨.ok, _, .inl rfl, rfl⟩))
  have hblocks : 16 * (paddedLen len final / Config.block) = paddedLen len final := paddedLen_blocks hl
  rw [readBlocks_eq_error, hblocks, readVec_paddedBuf_eq_error]

/-- DCHNK past its checks: where the chunk is read, the last decrypted byte is marked, so that the unpad step
completes. -/
theorem served_dchnk {len : BitVec 13} {final : Bool} {s : State} (hl : lenBlocks len = true)
    (hp : s.phase = .chained) : Served s.buf 0 len.toNat (execDchnk len final s) := by
  obtain ⟨hpos, -, hmod⟩ := lenBlocks_iff.mp hl
  have hblocks : 16 * (len.toNat / Config.block) = len.toNat := by simp only [Config.block]; omega
  refine .requireLen hl (.requirePhase hp (served_reading (fun e => ?_) fun Bs hB => ?_))
  · rw [readBlocks_eq_error, hblocks]
  · cases final with
    | false => exact ⟨.ok, _, .inl rfl, rfl⟩
    | true =>
      have hlen : Bs.length = len.toNat / Config.block := (Memory.readBlocks_eq_ok.mp hB).1
      obtain ⟨v, hv⟩ := exists_read_writeBlocks s.buf (runBlocks decStep s.chain Bs).1 (x := len.toNat - 1)
        (by rw [runBlocks_length]; omega)
      exact unpadTail_completes hv

/-- Every command that passes its checks is served the range it reads. -/
theorem exec_served {i : Instr} {s : State} (hl : legalLen i) (hp : phaseOk i s.phase) :
    Served s.buf (readRange i).1 (readRange i).2 (exec i s) := by
  have hwf := wellFormed_iff.mpr hl
  cases i with
  | nop | srst | hclr | hbyte | seedh | seedr | next | ksgen => exact served_finish
  | nextn | pad => exact .requireLen hwf served_finish
  | cinit => exact .requirePhase hp served_finish
  | hbuf => exact .requireLen hwf served_reading_finish
  | ksld | sha | shd | pvld | eblk | dblk | eblks | dblks => exact served_reading_finish
  | unpad len => exact .requireLen hwf (served_unpadTail len.toNat s)
  | echnk => exact served_echnk hwf hp
  | dchnk => exact served_dchnk hwf hp

/-- A command that passes its checks completes with no code but 0 and 5 (R306, R310). -/
theorem err_of_checked {i : Instr} {s t : State} (hl : legalLen i) (hp : phaseOk i s.phase)
    (h : exec i s = .next t) : t.err = 0 ∨ t.err = 5 := by
  cases exec_served hl hp with
  | stops _ hr => cases h.symm.trans hr
  | works _ hc hr =>
    cases h.symm.trans hr
    obtain rfl | rfl := hc
    · exact .inl rfl
    · exact .inr rfl

/-- Settles O7: the LEN check comes first, and no later step raises LEN. -/
theorem lenErrorExactlyForIllegalLen : Obligations.LenErrorExactlyForIllegalLen := by
  refine fun i s => ⟨fun hl => ?_, fun hl t h => ?_⟩
  · rw [exec_of_illegalLen hl]
    exact raiseError_eq (by decide) s
  · by_cases hp : phaseOk i s.phase
    · obtain herr | herr := err_of_checked hl hp h <;> simp [herr]
    · obtain rfl := raiseError_eq_next.mp ((exec_of_wrongPhase hl hp).symm.trans h)
      simp [ErrCode.code]

/-- Settles O8: the PHASE check comes after the LEN check, and no later step raises SEQ. -/
theorem seqErrorExactlyForWrongPhase : Obligations.SeqErrorExactlyForWrongPhase := by
  refine fun i s hl => ⟨fun hp => ?_, fun hp t h => ?_⟩
  · rw [exec_of_wrongPhase hl hp]
    exact raiseError_eq (by decide) s
  · obtain herr | herr := err_of_checked hl hp h <;> simp [herr]

/-- Settles O18: a served command stops exactly where its range cannot be read. -/
theorem unmarkedReadsStopAtTheLowestAddress : Obligations.UnmarkedReadsStopAtTheLowestAddress := by
  refine fun i s hl hp => ⟨fun a hle hlt hnone hlow => ?_, fun hmarked => ?_⟩
  · have herr : s.buf.readVec (readRange i).1 (readRange i).2 = .error a :=
      Memory.readVec_eq_error.mpr ⟨hle, hlt, hnone, fun x hx hxa => by
        obtain ⟨y, rfl⟩ := Nat.exists_eq_add_of_le hx
        exact hlow y (by omega)⟩
    cases exec_served hl hp with
    | stops hread hr => rw [hr, Except.error.inj (hread.symm.trans herr)]
    | works hread => cases hread.symm.trans herr
  · obtain ⟨v, hv⟩ := Memory.readVec_total hmarked
    cases exec_served hl hp with
    | stops hread => cases hread.symm.trans hv
    | works _ _ hr => exact ⟨_, hr⟩

/-! ## Errors before the work -/

/-- A command either raises LEN or SEQ on the state it finds, or completes with code 0 or 5. -/
theorem exec_error_cases {i : Instr} {s t : State} (h : exec i s = .next t) :
    (∃ c, c ≠ .ok ∧ t = complete c s) ∨ t.err = 0 ∨ t.err = 5 := by
  by_cases hl : legalLen i
  · by_cases hp : phaseOk i s.phase
    · exact .inr (err_of_checked hl hp h)
    · exact .inl ⟨.seq, by decide, raiseError_eq_next.mp ((exec_of_wrongPhase hl hp).symm.trans h)⟩
  · exact .inl ⟨.len, by decide, raiseError_eq_next.mp ((exec_of_illegalLen hl s).symm.trans h)⟩

/-- The same holds of every latched word: BADOP and RSVD are raised on the state it finds. -/
theorem completeWord_error_cases {w : Word} {s t : State} (h : completeWord w s = .next t) :
    (∃ c, c ≠ .ok ∧ t = complete c s) ∨ t.err = 0 ∨ t.err = 5 := by
  unfold completeWord at h
  split at h
  · exact .inl ⟨.badOp, by decide, raiseError_eq_next.mp h⟩
  · exact .inl ⟨.rsvd, by decide, raiseError_eq_next.mp h⟩
  · exact exec_error_cases h

/-- Settles O11: the codes 1 to 4 are raised on the state the completion finds. -/
theorem errorsBeforeWorkArePrecise : Obligations.ErrorsBeforeWorkArePrecise := by
  intro s t w hc h herr
  rw [step_of_completes hc] at h
  obtain ⟨c, hne, rfl⟩ | h0 | h5 := completeWord_error_cases h
  · exact complete_error_eq hne _
  · simp [h0] at herr
  · simp [h5] at herr

end Sys2Proof.Machine

/-!
SUPPORT and PROOFS for spec/70_reset_and_hazards.md. First the steps of the reset input and of an SB-CORE held in reset
(R340); then that a step which neither empties LATCH nor stops takes one event from the list, so that the engine's turn
comes (R361).
-/

namespace Sys2Proof.Machine

open Sys2Proof.Certificates

/-! ## The reset input -/

/-- The engine is idle while reset is asserted (R340). -/
theorem engineStep_of_asserted {s : State} (hr : s.resetAsserted = true) : engineStep s = .next s := if_pos hr

/-- A legal write while reset is asserted is taken from the bus and does nothing (R340). -/
theorem hostWrite_of_asserted {s : State} {off n : Nat} (v : Word) (hr : s.resetAsserted = true)
    (hl : legalAccess off n = true) : hostWrite off n v s = .next (respond .done s) := by
  rw [hostWrite, if_neg (by simp [hl]), if_pos hr]

/-- A legal read while reset is asserted answers a free value (R340). -/
theorem hostRead_of_asserted {s : State} {off n : Nat} (hr : s.resetAsserted = true)
    (hl : legalAccess off n = true) : hostRead off n s = .next (freeRead n s) := by
  rw [hostRead, if_neg (by simp [hl]), if_pos hr]

/-- Settles O57: the event put first is the step, so each clause is the rule of that event under reset. -/
theorem hardwareResetTakesEffect : Obligations.HardwareResetTakesEffect := by
  refine fun s rest => ⟨rfl, fun hr => ⟨?_, ?_, fun off n v hl => ?_⟩⟩
  · exact congrArg Host.Outcome.next (releaseReset_of_asserted hr)
  · exact engineStep_of_asserted hr
  · exact ⟨hostWrite_of_asserted v hr hl, _, hostRead_of_asserted hr hl⟩

/-! ## Completion of a latched command -/

/-- Within `n` steps the run from `s` passes a state with LATCH empty (R361). -/
def EmptiesLatchWithin (n : Nat) (s : State) : Prop :=
  ∃ k ≤ n, ∃ u : State, core.run k s = .next u ∧ u.latch = none

theorem emptiesLatchWithin_of_latch {s : State} (n : Nat) (h : s.latch = none) : EmptiesLatchWithin n s :=
  ⟨0, n.zero_le, s, rfl, h⟩

theorem emptiesLatchWithin_succ {n : Nat} {s s' : State} (hs : step s = .next s') (h : EmptiesLatchWithin n s') :
    EmptiesLatchWithin (n + 1) s := by
  obtain ⟨k, hk, u, hu, hl⟩ := h
  exact ⟨k + 1, Nat.succ_le_succ hk, u, (run_succ_of_next hs).trans hu, hl⟩

/-- The completion of a latched word empties LATCH (R86, R300). -/
theorem latch_of_completes {s t : State} {w : Word} (hc : completes s w) (h : step s = .next t) : t.latch = none := by
  rw [step_of_completes hc] at h
  obtain ⟨-, rfl⟩ | ⟨_, _, _, rfl, -⟩ := completeWord_cases h <;> exact complete_latch _ _

/-- A step with reset not asserted empties LATCH, or takes one event from the list and leaves reset so. -/
theorem step_empties_latch_or_takes_event {s t : State} (hr : s.resetAsserted = false) (h : step s = .next t) :
    t.latch = none ∨ t.resetAsserted = false ∧ t.events = s.events.tail := by
  cases step_cases h with
  | srst | completion | assertReset | releaseReset => exact .inl rfl
  | answer | dropped | accepted | seedWrite | bufWrite => exact .inr ⟨hr, rfl⟩

/-- A run as long as the list of events and one step more passes a state with LATCH empty: each step empties it or
shortens the list, and with no event waiting the step is the engine's (R361). -/
theorem emptiesLatchWithin_of_run {evs : List Event} {s t : State} (he : s.events = evs)
    (hr : s.resetAsserted = false) (h : core.run (evs.length + 1) s = .next t) :
    EmptiesLatchWithin (evs.length + 1) s := by
  induction evs generalizing s with
  | nil =>
    cases hl : s.latch with
    | none => exact emptiesLatchWithin_of_latch _ hl
    | some w =>
      obtain ⟨s', hs, -⟩ := exists_step_of_run h
      exact emptiesLatchWithin_succ hs (emptiesLatchWithin_of_latch _ (latch_of_completes ⟨hr, hl, .inl he⟩ hs))
  | cons e rest ih =>
    obtain ⟨s', hs, h'⟩ := exists_step_of_run h
    refine emptiesLatchWithin_succ hs ?_
    obtain hl | ⟨hr', he'⟩ := step_empties_latch_or_takes_event hr hs
    · exact emptiesLatchWithin_of_latch _ hl
    · exact ih (he'.trans (congrArg List.tail he)) hr' h'

/-- Settles O58, by induction on the events that wait. -/
theorem latchedCommandsComplete : Obligations.LatchedCommandsComplete := fun _ _ hr h =>
  emptiesLatchWithin_of_run rfl hr h

end Sys2Proof.Machine
